-- ==== Sys2Proof/Word.lean ====
section
/-! DEFINITION. The words B64C moves, and the two formats in which a host presents them: the
transaction (format TXN, 30_encoding.md R70) and the command word (format CMD, R74). -/

namespace Sys2Proof

/-- A register, an IBUF entry, a transaction's INDEX or DATA: 32 bits (00_scope.md R5, 30_encoding.md R70). -/
abbrev Word := BitVec 32

/-- An OBUF entry, an input byte, an output character: 8 bits (00_scope.md R5). -/
abbrev Byte := BitVec 8

/-- One host transaction, format TXN (30_encoding.md R70): HDR[2:1] is SPACE and HDR[0] is DIR. -/
structure Txn where
  hdr : BitVec 3
  index : Word
  data : Word
  deriving DecidableEq, Repr

/-- What the decoder reads. `txn` is a whole transaction. `cmd d` is format CMD (30_encoding.md R74):
the host's write of the command word `d` to CTRL, decoded to its row by R78 step 3
(DESIGN CHOICE, log entry 6: the transaction WR_REG, INDEX 0, DATA `d` runs the same). -/
inductive Frame where
  | txn (t : Txn)
  | cmd (d : Word)
  deriving DecidableEq, Repr

end Sys2Proof
end

