-- ==== Sys2Proof/Syntax.lean ====
section
/-! DEFINITION. The instructions of B64C: one constructor per row of spec/opcode_table.json. -/

namespace Sys2Proof

/-- The eight host transactions (30_encoding.md R71) and the five command words written to CTRL (R75).
`index` is INDEX read as a natural number (R72, 20_memory.md R51) and `data` is DATA (R73). A read
ignores DATA (R70) and a command word's bits [31:3] have no effect (R74), so neither is kept. -/
inductive Instr where
  | rdReg (index : Nat)
  | wrReg (index : Nat) (data : Word)
  | rdIbuf (index : Nat)
  | wrIbuf (index : Nat) (data : Word)
  | rdObuf (index : Nat)
  | wrObuf (index : Nat) (data : Word)
  | rdRsv (index : Nat)
  | wrRsv (index : Nat) (data : Word)
  | setop (op : BitVec 2)
  | encode
  | decode
  | startRsv2
  | startRsv3
  deriving DecidableEq, Repr

end Sys2Proof
end

