-- ==== Sys2Proof/WellFormed.lean ====
section
/-! DEFINITION. Which instructions a transaction can carry. -/

namespace Sys2Proof

/-- An index must fit the 32-bit INDEX field (30_encoding.md R70, R72). -/
def indexFits (index : Nat) : Bool := decide (index < 2 ^ 32)

/-- The well-formed instructions: those whose INDEX fits its field. Every other operand has the width
of its field by its type. -/
def Instr.wellFormed : Instr → Bool
  | .rdReg index => indexFits index
  | .wrReg index _ => indexFits index
  | .rdIbuf index => indexFits index
  | .wrIbuf index _ => indexFits index
  | .rdObuf index => indexFits index
  | .wrObuf index _ => indexFits index
  | .rdRsv index => indexFits index
  | .wrRsv index _ => indexFits index
  | .setop _ => true
  | .encode => true
  | .decode => true
  | .startRsv2 => true
  | .startRsv3 => true

end Sys2Proof
end

