-- ==== Sys2Proof/Decode.lean ====
section
/-! DEFINITION. The decoder of 30_encoding.md R78, the encoder, and the layout of a transaction as one
number. No encoding is illegal (R77), so `decode` is total and rejects nothing; only a length that no
row of the opcode table has is refused, by `tableFrame`. -/

namespace Sys2Proof

/-- 30_encoding.md R71, the row of a transaction by its HDR: HDR[2:1] is SPACE, HDR[0] is DIR.
WR_REG with INDEX 0 stays WR_REG here: its meaning decodes DATA as a command word
(43_host_interface.md R162). -/
def decodeTxn (t : Txn) : Instr :=
  match t.hdr with
  | 0b000#3 => .rdReg t.index.toNat
  | 0b001#3 => .wrReg t.index.toNat t.data
  | 0b010#3 => .rdIbuf t.index.toNat
  | 0b011#3 => .wrIbuf t.index.toNat t.data
  | 0b100#3 => .rdObuf t.index.toNat
  | 0b101#3 => .wrObuf t.index.toNat t.data
  | 0b110#3 => .rdRsv t.index.toNat
  | 0b111#3 => .wrRsv t.index.toNat t.data

/-- OP = DATA[1:0] of a command word (30_encoding.md R74). -/
def cmdOp (d : Word) : BitVec 2 := d.extractLsb' 0 2

/-- START = DATA[2] of a command word (30_encoding.md R74). -/
def cmdStart (d : Word) : Bool := d.getLsbD 2

/-- 30_encoding.md R75, the row of a command word by DATA[2:0]. -/
def decodeCmd (d : Word) : Instr :=
  if cmdStart d then
    match cmdOp d with
    | 0#2 => .encode
    | 1#2 => .decode
    | 2#2 => .startRsv2
    | 3#2 => .startRsv3
  else .setop (cmdOp d)

/-- The decoder: total (30_encoding.md R77, R78). -/
def decode : Frame → Instr
  | .txn t => decodeTxn t
  | .cmd d => decodeCmd d

/-- A transaction from its HDR, INDEX and DATA values. -/
def txnFrame (hdr : BitVec 3) (index : Nat) (data : Word) : Frame :=
  .txn { hdr := hdr, index := BitVec.ofNat 32 index, data := data }

/-- The encoder, from 30_encoding.md R71 and R75. DATA is 0 on a read, as R70 has it, and the ignored
bits of a command word are 0. -/
def encode : Instr → Frame
  | .rdReg index => txnFrame 0b000#3 index 0
  | .wrReg index data => txnFrame 0b001#3 index data
  | .rdIbuf index => txnFrame 0b010#3 index 0
  | .wrIbuf index data => txnFrame 0b011#3 index data
  | .rdObuf index => txnFrame 0b100#3 index 0
  | .wrObuf index data => txnFrame 0b101#3 index data
  | .rdRsv index => txnFrame 0b110#3 index 0
  | .wrRsv index data => txnFrame 0b111#3 index data
  | .setop op => .cmd (op.setWidth 32)
  | .encode => .cmd 0x4#32
  | .decode => .cmd 0x5#32
  | .startRsv2 => .cmd 0x6#32
  | .startRsv3 => .cmd 0x7#32

/-- A transaction as one number, its fields in the order of 30_encoding.md R70 (DESIGN CHOICE, log
entry 14): HDR is bits [2:0], INDEX bits [34:3], DATA bits [66:35]. -/
def txnOfNat (w : Nat) : Txn :=
  { hdr := BitVec.ofNat 3 w, index := BitVec.ofNat 32 (w >>> 3), data := BitVec.ofNat 32 (w >>> 35) }

/-- The frame an opcode-table word stands for (log entry 14): the table gives a TXN row its 3 bits of
HDR (in whole bytes, 8; a whole transaction is 67 bits, 72) and a CMD row its 32 bits of DATA. -/
def tableFrame (nbits w : Nat) : Option Frame :=
  if nbits = 32 then some (.cmd (BitVec.ofNat 32 w))
  else if nbits = 3 ∨ nbits = 8 ∨ nbits = 67 ∨ nbits = 72 then some (.txn (txnOfNat (w % 2 ^ nbits)))
  else none

/-- The instruction the decoder reads from a word numbered as spec/opcode_table.json numbers it. -/
def decodeTableWord (nbits w : Nat) : Option Instr := (tableFrame nbits w).map decode

/-- A row of the opcode table: its format and its mask and match. -/
structure TableRow where
  isCmd : Bool
  mask : Word
  value : Word
  deriving DecidableEq, Repr

/-- The row of spec/opcode_table.json that an instruction belongs to. -/
def Instr.row : Instr → TableRow
  | .rdReg _ => ⟨false, 0b111, 0b000⟩
  | .wrReg _ _ => ⟨false, 0b111, 0b001⟩
  | .rdIbuf _ => ⟨false, 0b111, 0b010⟩
  | .wrIbuf _ _ => ⟨false, 0b111, 0b011⟩
  | .rdObuf _ => ⟨false, 0b111, 0b100⟩
  | .wrObuf _ _ => ⟨false, 0b111, 0b101⟩
  | .rdRsv _ => ⟨false, 0b111, 0b110⟩
  | .wrRsv _ _ => ⟨false, 0b111, 0b111⟩
  | .setop _ => ⟨true, 0x4, 0x0⟩
  | .encode => ⟨true, 0x7, 0x4⟩
  | .decode => ⟨true, 0x7, 0x5⟩
  | .startRsv2 => ⟨true, 0x7, 0x6⟩
  | .startRsv3 => ⟨true, 0x7, 0x7⟩

/-- A frame matches a row: the same format, and the row's masked bits are the row's match. -/
def TableRow.admits (r : TableRow) : Frame → Bool
  | .txn t => !r.isCmd && decide (t.hdr.setWidth 32 &&& r.mask = r.value)
  | .cmd d => r.isCmd && decide (d &&& r.mask = r.value)

end Sys2Proof
end

