-- ==== Sys2Proof/Config.lean ====
section
/-! DEFINITION. The parameters the spec leaves open (00_scope.md R5) and the free values, which no
proof can see. -/

namespace Sys2Proof

/-- The open parameters of one B64C (00_scope.md R5): `maxIn` is MAX_IN, `lenW` is LEN_W. -/
structure Params where
  maxIn : Nat
  lenW : Nat
  deriving DecidableEq, Repr

/-- MAX_OUT = 4 * ceil(MAX_IN / 3) (00_scope.md R5). -/
def Params.maxOut (p : Params) : Nat := 4 * ((p.maxIn + 2) / 3)

/-- OLEN_W, the least `w >= 1` with `MAX_OUT <= 2^w - 1` (00_scope.md R5). -/
def Params.olenW (p : Params) : Nat := p.maxOut.log2 + 1

/-- What 00_scope.md R5 asks of the parameters. -/
def Params.legal (p : Params) : Bool :=
  decide (1 ≤ p.lenW) && decide (p.lenW ≤ 32) && decide (p.maxIn ≤ 2 ^ p.lenW - 1)
    && decide (p.olenW ≤ 32)

/-- The parameters `State.reset` takes (DESIGN CHOICE, log entry 1): those of 95_test_vectors.md,
MAX_IN = 16 and LEN_W = 16. -/
def Config.vectorParams : Params := { maxIn := 16, lenW := 16 }

/-- ANY(32) of 00_scope.md R8 for an IBUF entry: the draw with a given number, at a given index
(log entry 7). -/
opaque Config.anyWord : Nat → Nat → Word

/-- ANY(8) of 00_scope.md R8 for an OBUF entry: the draw with a given number, at a given index
(log entry 7). -/
opaque Config.anyByte : Nat → Nat → Byte

/-- ANY(24) of 10_state.md R30 for ACC: the draw with a given number (log entry 8). -/
opaque Config.anyAcc : Nat → BitVec 24

end Sys2Proof
end

