-- ==== Sys2Proof/Machine/State.lean ====
section
/-! DEFINITION. The state of one B64C and of the host that drives it, its reset, and the reasons a step
can stop. -/

namespace Sys2Proof.Machine

/-- A buffer: the entries that hold a value, as (index, value) pairs with rising indices. An index not
listed holds ANY (10_state.md R27, R28), so no listed entry equals an unlisted one (log entry 11). -/
abbrev Memory (w : Nat) := List (Nat × BitVec w)

/-- The two agents of 10_state.md R20. -/
inductive Agent where
  | host
  | engine
  deriving DecidableEq, Repr

/-- What the host's side can present: a transaction (43_host_interface.md R160), or a reset
(70_reset_and_hazards.md R230; log entry 13). -/
inductive HostEvent where
  | frame (f : Frame)
  | reset
  deriving DecidableEq, Repr

/-- The state. The registers and buffers are those of 10_state.md R22 to R30. `draws`, `script`,
`schedule` and `replies` are the model's own (log entries 3, 4 and 7). -/
structure State where
  /-- The parameters of this B64C (00_scope.md R5), which no step changes. -/
  cfg : Params
  /-- CTRL.OP (10_state.md R22). -/
  op : BitVec 2
  /-- STATUS.BUSY (10_state.md R23); the engine is idle exactly when it is 0. -/
  busy : Bool
  /-- STATUS.DONE (10_state.md R23). -/
  done : Bool
  /-- STATUS.ERR (10_state.md R23, 60_exceptions.md R200). -/
  err : BitVec 3
  /-- STATUS.PROTO, sticky (10_state.md R23, 60_exceptions.md R205). -/
  proto : Bool
  /-- ILEN (10_state.md R24); the bits from LEN_W up are 0. -/
  ilen : Word
  /-- OLEN (10_state.md R25); at most MAX_OUT. -/
  olen : Word
  /-- IBUF (10_state.md R27): the entries written since reset. -/
  ibuf : Memory 32
  /-- OBUF (10_state.md R28): the entries of the last result. -/
  obuf : Memory 8
  /-- ACC (10_state.md R30), between commands; no rule reads it. -/
  acc : BitVec 24
  /-- The number of the next free draw. -/
  draws : Nat
  /-- The host's pending transactions and resets, in program order. -/
  script : List HostEvent
  /-- Which agent moves, for each coming step at which both can (10_state.md R20). -/
  schedule : List Agent
  /-- The values reads have returned to the host (30_encoding.md R70), newest first. -/
  replies : List Word
  deriving DecidableEq, Repr

/-- Why a step stops. -/
inductive Fault where
  /-- Raised by `step` when no agent has an enabled step: the run has ended (43_host_interface.md R175).
  Safe: the machine has nothing to do. -/
  | runEnded
  deriving DecidableEq, Repr

/-- Why an instruction has no meaning. -/
inductive Refusal where
  /-- For an arm of `exec` without a meaning. No arm raises it. Safe. -/
  | notModelled (mnemonic : String)
  deriving DecidableEq, Repr

/-- The machine right after reset (10_state.md R33), with given parameters and nothing pending. ACC is
0 (DESIGN CHOICE, log entry 8). -/
def State.resetWith (p : Params) : State where
  cfg := p
  op := 0
  busy := false
  done := false
  err := 0
  proto := false
  ilen := 0
  olen := 0
  ibuf := []
  obuf := []
  acc := 0
  draws := 0
  script := []
  schedule := []
  replies := []

/-- The machine right after reset, with the parameters of 95_test_vectors.md (log entry 1). -/
def State.reset : State := State.resetWith Config.vectorParams

end Sys2Proof.Machine
end

