-- ==== Sys2Proof/Machine/Flags.lean ====
section
/-! DEFINITION. STATUS: its error codes, its word as the host reads it, and its sticky bit. B64C has no
other flags (10_state.md R32). -/

namespace Sys2Proof.Machine

/-- ERR = 0, NONE (60_exceptions.md R200). -/
def errNone : BitVec 3 := 0
/-- ERR = 1, INVALID_LENGTH (60_exceptions.md R200). -/
def errInvalidLength : BitVec 3 := 1
/-- ERR = 2, INVALID_CHARACTER (60_exceptions.md R200). -/
def errInvalidCharacter : BitVec 3 := 2
/-- ERR = 3, ILLEGAL_COMMAND (60_exceptions.md R200). -/
def errIllegalCommand : BitVec 3 := 3

/-- STATUS as a read returns it (10_state.md R23): bits [31:6] are 0, then PROTO, ERR, DONE and BUSY
from bit 5 down. -/
def statusWord (s : State) : Word :=
  0#26 ++ BitVec.ofBool s.proto ++ s.err ++ BitVec.ofBool s.done ++ BitVec.ofBool s.busy

/-- A host protocol violation sets PROTO and nothing else (60_exceptions.md R205). -/
def State.setProto (s : State) : State := { s with proto := true }

/-- The last completed command succeeded and its result is still there: no command runs, DONE = 1 and
ERR = 0 (43_host_interface.md R170; log entry 15). -/
def State.resultReady (s : State) : Bool := !s.busy && s.done && decide (s.err = errNone)

end Sys2Proof.Machine
end

