-- ==== Sys2Proof/Machine/Operands.lean ====
section
/-! DEFINITION. How a transaction's INDEX and DATA reach their target (30_encoding.md R72, R73) and
what a register reads as. -/

namespace Sys2Proof.Machine

/-- DATA[LEN_W-1:0], what ILEN takes of DATA (30_encoding.md R73, 43_host_interface.md R166). -/
def ilenOfData (p : Params) (d : Word) : Word := BitVec.ofNat 32 (d.toNat % 2 ^ p.lenW)

/-- The register an INDEX names (20_memory.md R58), as RD_REG returns it (43_host_interface.md R161).
START reads 0 and so does every index from 4 up. -/
def readReg (s : State) (index : Nat) : Word :=
  match index with
  | 0 => s.op.setWidth 32
  | 1 => statusWord s
  | 2 => s.ilen
  | 3 => s.olen
  | _ => 0

end Sys2Proof.Machine
end

