-- ==== Sys2Proof/Machine/Ops.lean ====
section
/-! DEFINITION. The operations the meanings share: reading and writing a buffer, answering the host,
taking a free value, guarding a write by BUSY, starting a command, completing one, and reset. B64C takes
no trap (60_exceptions.md R207): an error is a completed command, so `State.complete` is the one place
where an error is recorded, and there is no return from it (R208). -/

namespace Sys2Proof.Machine

namespace Memory

/-- MemRead: the value of an entry, none where nothing is listed (00_scope.md R8). -/
def read {w : Nat} (m : Memory w) (i : Nat) : Option (BitVec w) :=
  match m with
  | [] => none
  | (k, v) :: rest => if k = i then some v else Memory.read rest i

/-- MemWrite: one entry replaced, the indices kept rising (00_scope.md R8). -/
def write {w : Nat} (m : Memory w) (i : Nat) (v : BitVec w) : Memory w :=
  match m with
  | [] => [(i, v)]
  | (k, u) :: rest =>
    if i < k then (i, v) :: (k, u) :: rest
    else if i = k then (i, v) :: rest
    else (k, u) :: Memory.write rest i v

/-- MemWrite of a sequence to consecutive entries from `j` up. -/
def writeAll {w : Nat} (m : Memory w) (j : Nat) : List (BitVec w) → Memory w
  | [] => m
  | v :: vs => Memory.writeAll (Memory.write m j v) (j + 1) vs

/-- The canonical form: strictly rising indices, so equal buffers are equal lists. -/
def wf {w : Nat} (m : Memory w) : Bool :=
  match m with
  | [] => true
  | (k, _) :: rest => rest.all (fun c => decide (k < c.1)) && Memory.wf rest

end Memory

/-- A read transaction returns one value to the host (30_encoding.md R70). -/
def State.reply (s : State) (v : Word) : State := { s with replies := v :: s.replies }

/-- One free draw has been taken (log entry 7). -/
def State.tick (s : State) : State := { s with draws := s.draws + 1 }

/-- A write to CTRL, ILEN or IBUF: dropped with PROTO set while BUSY = 1, else `f`
(43_host_interface.md R165). -/
def State.whileIdle (s : State) (f : State → State) : State := if s.busy then s.setProto else f s

/-- Command start (43_host_interface.md R164). From now on every OBUF entry is ANY(8), so none is
listed (10_state.md R28, log entry 10). -/
def State.start (s : State) (op : BitVec 2) : State :=
  { s with op := op, busy := true, done := false, err := errNone, olen := 0, obuf := [] }

/-- A START with the given OP: started while idle, dropped while busy (43_host_interface.md R164, R165). -/
def startCommand (op : BitVec 2) (s : State) : State := s.whileIdle (fun s => s.start op)

/-- The end of an engine step (43_host_interface.md R173): the error code, the result written to OBUF
from entry 0, its length in OLEN, BUSY = 0 and DONE = 1. Every other OBUF entry is ANY(8). ACC is left
with a free value (10_state.md R30, log entry 8). -/
def State.complete (s : State) (err : BitVec 3) (out : List Byte) : State :=
  { s with
    busy := false, done := true, err := err, olen := BitVec.ofNat 32 out.length
    obuf := Memory.writeAll [] 0 out
    acc := Config.anyAcc s.draws, draws := s.draws + 1 }

/-- A command that ends in an error has no result (60_exceptions.md R203). -/
def State.completeError (s : State) (err : BitVec 3) : State := s.complete err []

/-- The reset event (70_reset_and_hazards.md R230, R231): every register of the block takes its reset
value, a command in flight is dropped, and every buffer entry and ACC are unspecified. The parameters
and the host's own side stay (log entry 13). -/
def State.resetDevice (s : State) : State :=
  { s with
    op := 0, busy := false, done := false, err := errNone, proto := false, ilen := 0, olen := 0
    ibuf := [], obuf := [], acc := Config.anyAcc s.draws, draws := s.draws + 1 }

end Sys2Proof.Machine
end

