-- ==== Sys2Proof/Machine/Buffer.lean ====
section
/-! DEFINITION. The meanings of the buffer transactions. -/

namespace Sys2Proof.Machine

/-- RD_IBUF (43_host_interface.md R168): the entry, a fresh ANY(32) where none was written since reset,
0 out of range. -/
def execRdIbuf (index : Nat) (s : State) : Host.Outcome State Fault Refusal :=
  if index < s.cfg.maxIn then
    match Memory.read s.ibuf index with
    | some v => .next (s.reply v)
    | none => .next ((s.reply (Config.anyWord s.draws index)).tick)
  else .next (s.reply 0)

/-- WR_IBUF in range, out of range (43_host_interface.md R169), and while BUSY = 1 (R165). -/
def execWrIbuf (index : Nat) (d : Word) (s : State) : Host.Outcome State Fault Refusal :=
  .next (s.whileIdle fun s =>
    if index < s.cfg.maxIn then { s with ibuf := Memory.write s.ibuf index d } else s.setProto)

/-- The OBUF entry a read sees, none where it is ANY(8) (43_host_interface.md R170, 10_state.md R28). -/
def resultEntry (s : State) (index : Nat) : Option Byte :=
  if s.resultReady ∧ index < s.olen.toNat then Memory.read s.obuf index else none

/-- RD_OBUF (43_host_interface.md R170): the result's entry zero-extended, a fresh ANY(8) elsewhere in
range, 0 out of range. -/
def execRdObuf (index : Nat) (s : State) : Host.Outcome State Fault Refusal :=
  if index < s.cfg.maxOut then
    match resultEntry s index with
    | some b => .next (s.reply (b.setWidth 32))
    | none => .next ((s.reply ((Config.anyByte s.draws index).setWidth 32)).tick)
  else .next (s.reply 0)

/-- WR_OBUF (43_host_interface.md R171). -/
def execWrObuf (_index : Nat) (_data : Word) (s : State) : Host.Outcome State Fault Refusal := .next s

end Sys2Proof.Machine
end

