-- ==== Sys2Proof/Machine/Command.lean ====
section
/-! DEFINITION. The meanings of the five command words (30_encoding.md R75), and of a whole command
word. -/

namespace Sys2Proof.Machine

/-- SETOP (43_host_interface.md R163; R165 while BUSY = 1). -/
def execSetop (op : BitVec 2) (s : State) : Host.Outcome State Fault Refusal :=
  .next (s.whileIdle (fun s => { s with op := op }))

/-- ENCODE (41_encoder.md R119): its start (43_host_interface.md R164). Its body is the engine step. -/
def execEncode (s : State) : Host.Outcome State Fault Refusal := .next (startCommand 0 s)

/-- DECODE (42_decoder.md R147): its start (43_host_interface.md R164). Its body is the engine step. -/
def execDecode (s : State) : Host.Outcome State Fault Refusal := .next (startCommand 1 s)

/-- START_RSV2 (43_host_interface.md R174): its start. The engine step completes it with ERR = 3. -/
def execStartRsv2 (s : State) : Host.Outcome State Fault Refusal := .next (startCommand 2 s)

/-- START_RSV3 (43_host_interface.md R174): its start. The engine step completes it with ERR = 3. -/
def execStartRsv3 (s : State) : Host.Outcome State Fault Refusal := .next (startCommand 3 s)

/-- The command word of a write to CTRL (43_host_interface.md R162, 30_encoding.md R78 step 3). -/
def execCmdWord (d : Word) (s : State) : Host.Outcome State Fault Refusal :=
  if cmdStart d then
    match cmdOp d with
    | 0#2 => execEncode s
    | 1#2 => execDecode s
    | 2#2 => execStartRsv2 s
    | 3#2 => execStartRsv3 s
  else execSetop (cmdOp d) s

end Sys2Proof.Machine
end

