-- ==== Sys2Proof/Machine/Register.lean ====
section
/-! DEFINITION. The meanings of the register transactions, and of the transactions of the reserved
space. -/

namespace Sys2Proof.Machine

/-- RD_REG (43_host_interface.md R161). -/
def execRdReg (index : Nat) (s : State) : Host.Outcome State Fault Refusal :=
  .next (s.reply (readReg s index))

/-- WR_REG to ILEN (43_host_interface.md R166; R165 while BUSY = 1). -/
def writeIlen (d : Word) (s : State) : State :=
  s.whileIdle (fun s => { s with ilen := ilenOfData s.cfg d })

/-- WR_REG (43_host_interface.md R162): CTRL, ILEN, or ignored (R167). -/
def execWrReg (index : Nat) (d : Word) (s : State) : Host.Outcome State Fault Refusal :=
  match index with
  | 0 => execCmdWord d s
  | 2 => .next (writeIlen d s)
  | _ => .next s

/-- RD_RSV (43_host_interface.md R172, 30_encoding.md R77). -/
def execRdRsv (_index : Nat) (s : State) : Host.Outcome State Fault Refusal := .next (s.reply 0)

/-- WR_RSV (43_host_interface.md R172, 30_encoding.md R77). -/
def execWrRsv (_index : Nat) (_data : Word) (s : State) : Host.Outcome State Fault Refusal := .next s

end Sys2Proof.Machine
end

