-- ==== Sys2Proof/Machine/Dispatch.lean ====
section
/-! DEFINITION. The meaning of every instruction: the rule its mnemonic names (43_host_interface.md R160). -/

namespace Sys2Proof.Machine

def exec (i : Instr) (s : State) : Host.Outcome State Fault Refusal :=
  match i with
  | .rdReg index => Sys2Proof.Machine.execRdReg index s
  | .wrReg index data => Sys2Proof.Machine.execWrReg index data s
  | .rdIbuf index => Sys2Proof.Machine.execRdIbuf index s
  | .wrIbuf index data => Sys2Proof.Machine.execWrIbuf index data s
  | .rdObuf index => Sys2Proof.Machine.execRdObuf index s
  | .wrObuf index data => Sys2Proof.Machine.execWrObuf index data s
  | .rdRsv index => Sys2Proof.Machine.execRdRsv index s
  | .wrRsv index data => Sys2Proof.Machine.execWrRsv index data s
  | .setop op => Sys2Proof.Machine.execSetop op s
  | .encode => Sys2Proof.Machine.execEncode s
  | .decode => Sys2Proof.Machine.execDecode s
  | .startRsv2 => Sys2Proof.Machine.execStartRsv2 s
  | .startRsv3 => Sys2Proof.Machine.execStartRsv3 s

end Sys2Proof.Machine
end

