-- ==== Sys2Proof/Machine/Codec.lean ====
section
/-! DEFINITION. The two transforms as pure functions (00_scope.md R13): the alphabet
(40_alphabet.md), the encoder (41_encoder.md) and the decoder (42_decoder.md). -/

namespace Sys2Proof.Machine

/-- PAD, the code of `=`, as an output character (00_scope.md R11). -/
def padByte : Byte := 0x3D

/-- PAD as an input character (00_scope.md R11). -/
def padCode : Word := 0x3D

/-- ENC_LUT (40_alphabet.md R101). -/
def encLut (i : BitVec 6) : Byte :=
  if i.toNat ≤ 25 then BitVec.ofNat 8 (0x41 + i.toNat)
  else if i.toNat ≤ 51 then BitVec.ofNat 8 (0x61 + (i.toNat - 26))
  else if i.toNat ≤ 61 then BitVec.ofNat 8 (0x30 + (i.toNat - 52))
  else if i.toNat = 62 then 0x2B
  else 0x2F

/-- DEC_LUT, none for `invalid`; all 32 bits are compared (40_alphabet.md R102, R104). -/
def decLut (c : Word) : Option (BitVec 6) :=
  if 0x41 ≤ c.toNat ∧ c.toNat ≤ 0x5A then some (BitVec.ofNat 6 (c.toNat - 0x41))
  else if 0x61 ≤ c.toNat ∧ c.toNat ≤ 0x7A then some (BitVec.ofNat 6 (c.toNat - 0x61 + 26))
  else if 0x30 ≤ c.toNat ∧ c.toNat ≤ 0x39 then some (BitVec.ofNat 6 (c.toNat - 0x30 + 52))
  else if c.toNat = 0x2B then some 62
  else if c.toNat = 0x2F then some 63
  else none

/-- The accumulator of an encode group (41_encoder.md R111). -/
def encAcc (b0 b1 b2 : Byte) : BitVec 24 :=
  (b0.setWidth 24 <<< 16) ||| (b1.setWidth 24 <<< 8) ||| b2.setWidth 24

/-- EncGroup (41_encoder.md R114): `m` of the three bytes are real, the absent ones are 0. -/
def encGroup (b0 b1 b2 : Byte) (m : Nat) : List Byte :=
  let acc := encAcc b0 b1 b2
  [encLut (acc.extractLsb' 18 6), encLut (acc.extractLsb' 12 6),
    if 2 ≤ m then encLut (acc.extractLsb' 6 6) else padByte,
    if m = 3 then encLut (acc.extractLsb' 0 6) else padByte]

/-- Encode (41_encoder.md R115), group by group (R110). -/
def encodeBytes : List Byte → List Byte
  | [] => []
  | [b0] => encGroup b0 0 0 1
  | [b0, b1] => encGroup b0 b1 0 2
  | b0 :: b1 :: b2 :: rest => encGroup b0 b1 b2 3 ++ encodeBytes rest

/-- The two errors of a decode (00_scope.md R9). -/
inductive DecodeError where
  | invalidLength
  | invalidCharacter
  deriving DecidableEq, Repr

/-- What a decode returns (00_scope.md R9). -/
inductive DecodeResult where
  | ok (bytes : List Byte)
  | err (kind : DecodeError)
  deriving DecidableEq, Repr

/-- Strip (42_decoder.md R131): the trailing run of PAD codes removed, and nothing else. -/
def strip : List Word → List Word
  | [] => []
  | c :: cs => if c = padCode ∧ strip cs = [] then [] else c :: strip cs

/-- The 6-bit values of all the characters, none if one is invalid (42_decoder.md R134). -/
def lutAll : List Word → Option (List (BitVec 6))
  | [] => some []
  | c :: cs =>
    match decLut c, lutAll cs with
    | some v, some vs => some (v :: vs)
    | _, _ => none

/-- The accumulator of a decode group (42_decoder.md R136). -/
def decAcc (v0 v1 v2 v3 : BitVec 6) : BitVec 24 :=
  (v0.setWidth 24 <<< 18) ||| (v1.setWidth 24 <<< 12) ||| (v2.setWidth 24 <<< 6) ||| v3.setWidth 24

/-- DecGroup (42_decoder.md R136): `p` of the four values are present, the missing ones are 0. -/
def decGroup (v0 v1 v2 v3 : BitVec 6) (p : Nat) : List Byte :=
  let acc := decAcc v0 v1 v2 v3
  [acc.extractLsb' 16 8]
    ++ (if 3 ≤ p then [acc.extractLsb' 8 8] else [])
    ++ (if p = 4 then [acc.extractLsb' 0 8] else [])

/-- The bytes of a whole value sequence, group by group (42_decoder.md R133, R135). A last group of one
value has been rejected before (R132). -/
def unpack : List (BitVec 6) → List Byte
  | [] => []
  | [_] => []
  | [v0, v1] => decGroup v0 v1 0 0 2
  | [v0, v1, v2] => decGroup v0 v1 v2 0 3
  | v0 :: v1 :: v2 :: v3 :: rest => decGroup v0 v1 v2 v3 4 ++ unpack rest

/-- Decode (42_decoder.md R145): the length check comes before the characters (R138). -/
def decodeCodes (codes : List Word) : DecodeResult :=
  if (strip codes).length % 4 = 1 then .err .invalidLength
  else match lutAll (strip codes) with
    | none => .err .invalidCharacter
    | some vs => .ok (unpack vs)

end Sys2Proof.Machine
end

