-- ==== Sys2Proof/Machine/Engine.lean ====
section
/-! DEFINITION. The engine step (43_host_interface.md R173): the second half of ENCODE, DECODE,
START_RSV2 and START_RSV3. -/

namespace Sys2Proof.Machine

/-- An IBUF entry as the engine reads it: a free value where the host has written none since reset
(10_state.md R27, 93_implementation_defined.md section 1). -/
def inputEntry (s : State) (i : Nat) : Word := (Memory.read s.ibuf i).getD (Config.anyWord s.draws i)

/-- The input of a command: `IBUF[0 .. ILEN)` (30_encoding.md R79). -/
def inputEntries (s : State) : List Word := (List.range s.ilen.toNat).map (inputEntry s)

/-- The input of ENCODE: bits [7:0] of each entry (41_encoder.md R120). -/
def inputBytes (s : State) : List Byte := (inputEntries s).map (fun e => e.extractLsb' 0 8)

/-- ILLEGAL_COMMAND (60_exceptions.md R204): a reserved OP, or ILEN above MAX_IN. -/
def commandIllegal (s : State) : Bool :=
  decide (s.op = 2) || decide (s.op = 3) || decide (s.cfg.maxIn < s.ilen.toNat)

/-- The ERR code of a decode error (60_exceptions.md R200). -/
def DecodeError.code : DecodeError → BitVec 3
  | .invalidLength => errInvalidLength
  | .invalidCharacter => errInvalidCharacter

/-- The ENCODE body (41_encoder.md R119). -/
def encodeBody (s : State) : State := s.complete errNone (encodeBytes (inputBytes s))

/-- The DECODE body (42_decoder.md R147). -/
def decodeBody (s : State) : State :=
  match decodeCodes (inputEntries s) with
  | .ok out => s.complete errNone out
  | .err kind => s.completeError kind.code

/-- The engine step (43_host_interface.md R173). ILLEGAL_COMMAND is tested first (60_exceptions.md
R206). -/
def engineStep (s : State) : State :=
  if commandIllegal s then s.completeError errIllegalCommand
  else if s.op = 0 then encodeBody s
  else decodeBody s

end Sys2Proof.Machine
end

