-- ==== Sys2Proof/Machine/Schedule.lean ====
section
/-! DEFINITION. Which agent takes the next step (10_state.md R20, 20_memory.md R60). -/

namespace Sys2Proof.Machine

/-- The next step: none is enabled, or the engine's, or the host's next event; with the state in which
it is taken. -/
inductive Turn where
  | ended
  | engine (s : State)
  | host (e : HostEvent) (s : State)
  deriving DecidableEq, Repr

/-- Any enabled agent may move (10_state.md R20). The host is enabled while an event is pending, the
engine while BUSY = 1 (43_host_interface.md R173). Where both are, the schedule decides, and the engine
moves once the schedule is used up: the weak fairness of 70_reset_and_hazards.md R240 (log entry 4). -/
def nextTurn (s : State) : Turn :=
  match s.script with
  | [] => if s.busy then .engine s else .ended
  | e :: rest =>
    if s.busy then
      match s.schedule with
      | [] => .engine s
      | .engine :: more => .engine { s with schedule := more }
      | .host :: more => .host e { s with script := rest, schedule := more }
    else .host e { s with script := rest }

/-- `s` with one more event that the host takes at the very next step. -/
def State.withEvent (s : State) (e : HostEvent) : State :=
  { s with
    script := e :: s.script
    schedule := if s.busy then .host :: s.schedule else s.schedule }

end Sys2Proof.Machine
end

