-- ==== Sys2Proof/Machine/Step.lean ====
section
/-! DEFINITION. One step of the system of host and engine. -/

namespace Sys2Proof.Machine

/-- The host's step: a transaction is decoded and runs (43_host_interface.md R160), a reset resets the
block (70_reset_and_hazards.md R230). -/
def hostStep (e : HostEvent) (s : State) : Host.Outcome State Fault Refusal :=
  match e with
  | .frame f => exec (decode f) s
  | .reset => .next s.resetDevice

/-- One step: of the agent whose turn it is (10_state.md R20). Where none is enabled the run has ended
(43_host_interface.md R175). -/
def step (s : State) : Host.Outcome State Fault Refusal :=
  match nextTurn s with
  | .ended => .fault .runEnded
  | .engine s' => .next (engineStep s')
  | .host e s' => hostStep e s'

/-- `s` with the instruction of an opcode-table word as the host's next transaction, which the next
step takes (log entries 3 and 14); `s` itself where no row has that length. -/
def State.withFetchWord (s : State) (nbits w : Nat) : State :=
  match tableFrame nbits w with
  | some f => s.withEvent (.frame f)
  | none => s

end Sys2Proof.Machine
end

