-- ==== Sys2Proof/Safety.lean ====
section
/-! DEFINITION. The terms in which claims are stated: a host protocol violation, a safe run, and the
invariant of a B64C. -/

namespace Sys2Proof.Machine

/-- The transactions that breach the host protocol (60_exceptions.md R205). -/
def protoViolation (s : State) : Instr → Bool
  | .rdReg _ => false
  | .wrReg index _ => s.busy && (decide (index = 0) || decide (index = 2))
  | .rdIbuf _ => false
  | .wrIbuf index _ => s.busy || decide (s.cfg.maxIn ≤ index)
  | .rdObuf _ => false
  | .wrObuf _ _ => false
  | .rdRsv _ => false
  | .wrRsv _ _ => false
  | .setop _ => s.busy
  | .encode => s.busy
  | .decode => s.busy
  | .startRsv2 => s.busy
  | .startRsv3 => s.busy

/-- A run is safe while no violation is recorded: 60_exceptions.md R205 makes PROTO = 0 the premise of
every claim about a script. -/
def State.safe (s : State) : Bool := !s.proto

/-- `codes` is the input of a command, all of it written by the host: `IBUF[0 .. ILEN)`
(30_encoding.md R79). -/
def State.inputIs (s : State) (codes : List Word) : Prop :=
  codes.length = s.ilen.toNat ∧ ∀ i < codes.length, Memory.read s.ibuf i = codes[i]?

/-- `codes` is what the engine may read as the input of a command: the entries the host has written as
it wrote them, and any value for each of the others (10_state.md R27, 93_implementation_defined.md
section 1). -/
def State.mayRead (s : State) (codes : List Word) : Prop :=
  codes.length = s.ilen.toNat ∧ ∀ i v, i < codes.length → Memory.read s.ibuf i = some v → codes[i]? = some v

/-- A command has completed with the result `out`: STATUS, OLEN and OBUF say so, and no other OBUF
entry is listed (60_exceptions.md R200, 10_state.md R28). -/
def State.resultIs (s : State) (out : List Byte) : Prop :=
  s.busy = false ∧ s.done = true ∧ s.err = 0 ∧ s.olen.toNat = out.length
    ∧ ∀ j, Memory.read s.obuf j = out[j]?

/-- A command has completed with an error: the code in ERR, OLEN = 0, and no OBUF entry is listed
(60_exceptions.md R203). -/
def State.failedWith (s : State) (err : BitVec 3) : Prop :=
  s.busy = false ∧ s.done = true ∧ s.err = err ∧ s.olen = 0 ∧ ∀ j, Memory.read s.obuf j = none

/-- What no command changes (43_host_interface.md R164, R173; 41_encoder.md R119, 42_decoder.md R147):
the parameters, PROTO, ILEN, IBUF and the host's own side. -/
def State.sameOutsideCommand (s t : State) : Prop :=
  t.cfg = s.cfg ∧ t.proto = s.proto ∧ t.ilen = s.ilen ∧ t.ibuf = s.ibuf
    ∧ t.script = s.script ∧ t.schedule = s.schedule ∧ t.replies = s.replies

/-- What holds of every B64C that the spec allows. -/
structure StateInv (s : State) : Prop where
  /-- 00_scope.md R5. -/
  params : s.cfg.legal = true
  /-- 10_state.md R24: ILEN has LEN_W bits. -/
  ilenFits : s.ilen.toNat < 2 ^ s.cfg.lenW
  /-- 30_encoding.md R76: ERR 4 to 7 are never produced. -/
  errLegal : s.err.toNat ≤ 3
  /-- 43_host_interface.md R164, R173: a START clears DONE and the engine step clears BUSY. -/
  notBusyAndDone : s.busy = true → s.done = false
  /-- 43_host_interface.md R164: from a START to its engine step ERR and OLEN are 0. -/
  notDoneClean : s.done = false → s.err = errNone ∧ s.olen = 0
  /-- 60_exceptions.md R203: an error leaves no result. -/
  errorEmpty : s.err ≠ errNone → s.olen = 0
  /-- 10_state.md R25. -/
  olenFits : s.olen.toNat ≤ s.cfg.maxOut
  /-- The canonical form of IBUF. -/
  ibufWf : Memory.wf s.ibuf = true
  /-- 10_state.md R27: IBUF has MAX_IN entries. -/
  ibufInRange : ∀ c ∈ s.ibuf, c.1 < s.cfg.maxIn
  /-- 10_state.md R28: OBUF lists exactly the entries 0 to OLEN - 1. -/
  obufHolds : s.obuf.map Prod.fst = List.range s.olen.toNat

end Sys2Proof.Machine
end

