-- ==== Sys2Proof/Certificates/Slice0/Obligations.lean ====
section
/-! DEFINITION. The statements for the provers: what the numbered rules of spec/ say an instruction, the
engine, the two transforms and the machine do. `draws` is the model's own count of free draws (log
entry 7): no statement gives a free value. -/

open Sys2Proof Sys2Proof.Machine

/-! ### Encoding -/

/-- Words written out from 30_encoding.md R71, R74, R75 and from the listings of 95_test_vectors.md
decode to the instructions they stand for. -/
def Obligations.SpecWordsDecode : Prop :=
  decode (.txn ⟨0b011#3, 0x0#32, 0x4D#32⟩) = .wrIbuf 0 0x4D
  ∧ decode (.txn ⟨0b001#3, 0x2#32, 0x3#32⟩) = .wrReg 2 0x3
  ∧ decode (.txn ⟨0b000#3, 0x1#32, 0x0#32⟩) = .rdReg 1
  ∧ decode (.txn ⟨0b100#3, 0x3#32, 0x0#32⟩) = .rdObuf 3
  ∧ decode (.txn ⟨0b010#3, 0x0#32, 0x0#32⟩) = .rdIbuf 0
  ∧ decode (.txn ⟨0b111#3, 0x0#32, 0x1#32⟩) = .wrRsv 0 0x1
  ∧ decode (.cmd 0x3#32) = .setop 3
  ∧ decode (.cmd 0x8#32) = .setop 0
  ∧ decode (.cmd 0xFFFFFFFC#32) = .encode
  ∧ decode (.cmd 0x5#32) = .decode
  ∧ decode (.cmd 0x6#32) = .startRsv2
  ∧ decode (.cmd 0x7#32) = .startRsv3

/-- 30_encoding.md R71, R72, R73: HDR alone selects the transaction's row, INDEX is read unsigned and DATA whole. -/
def Obligations.HeaderSelectsTransaction : Prop :=
  ∀ index data : Word,
    decode (.txn ⟨0b000#3, index, data⟩) = .rdReg index.toNat
    ∧ decode (.txn ⟨0b001#3, index, data⟩) = .wrReg index.toNat data
    ∧ decode (.txn ⟨0b010#3, index, data⟩) = .rdIbuf index.toNat
    ∧ decode (.txn ⟨0b011#3, index, data⟩) = .wrIbuf index.toNat data
    ∧ decode (.txn ⟨0b100#3, index, data⟩) = .rdObuf index.toNat
    ∧ decode (.txn ⟨0b101#3, index, data⟩) = .wrObuf index.toNat data
    ∧ decode (.txn ⟨0b110#3, index, data⟩) = .rdRsv index.toNat
    ∧ decode (.txn ⟨0b111#3, index, data⟩) = .wrRsv index.toNat data

/-- 30_encoding.md R75: every command word matches exactly one row of the map, and decodes to it. -/
def Obligations.CommandWordSelectsRow : Prop :=
  ∀ d : Word,
    (d &&& 0x4#32 = 0x0#32 → decode (.cmd d) = .setop (d.extractLsb' 0 2))
    ∧ (d &&& 0x7#32 = 0x4#32 → decode (.cmd d) = .encode)
    ∧ (d &&& 0x7#32 = 0x5#32 → decode (.cmd d) = .decode)
    ∧ (d &&& 0x7#32 = 0x6#32 → decode (.cmd d) = .startRsv2)
    ∧ (d &&& 0x7#32 = 0x7#32 → decode (.cmd d) = .startRsv3)
    ∧ (([(0x4#32, 0x0#32), (0x7#32, 0x4#32), (0x7#32, 0x5#32), (0x7#32, 0x6#32), (0x7#32, 0x7#32)]
        : List (Word × Word)).filter (fun row => decide (d &&& row.1 = row.2))).length = 1

/-- Decoding what the encoder wrote gives every well-formed instruction back, at every operand. -/
def Obligations.DecodeInvertsEncode : Prop :=
  ∀ i : Instr, i.wellFormed = true → decode (encode i) = i

/-- The other direction: re-encoding loses exactly what 30_encoding.md R70 and R74 ignore, the DATA of
a read and bits [31:3] of a command word. -/
def Obligations.EncodeLosesOnlyIgnoredBits : Prop :=
  (∀ t : Txn, encode (decode (.txn t)) = .txn { t with data := if t.hdr.getLsbD 0 then t.data else 0 })
  ∧ ∀ d : Word, encode (decode (.cmd d)) = .cmd (d &&& 0x7#32)

/-- 30_encoding.md R78 step 3: WR_REG with INDEX 0 runs the row that its DATA selects as a command
word. -/
def Obligations.CtrlWriteRunsCommandRow : Prop :=
  ∀ (s : State) (d : Word), exec (.wrReg 0 d) s = exec (decode (.cmd d)) s

/-! ### The step -/

/-- 43_host_interface.md R160: on the host's turn, the pending transaction is decoded and run, on the
state from which it has been taken; with BUSY = 1 the turn is the host's where the schedule says so. -/
def Obligations.StepRunsPendingInstruction : Prop :=
  ∀ (s : State) (f : Frame) (rest : List HostEvent), s.script = .frame f :: rest →
    (s.busy = false → step s = exec (decode f) { s with script := rest })
    ∧ ∀ more, s.busy = true → s.schedule = .host :: more →
        step s = exec (decode f) { s with script := rest, schedule := more }

/-- The engine steps only while BUSY = 1 (43_host_interface.md R173): when the schedule says so, and
when the host has nothing pending or the schedule is used up (the model's fair default, log entry 4). -/
def Obligations.StepRunsEngineWhileBusy : Prop :=
  ∀ s : State, s.busy = true →
    (s.script = [] ∨ s.schedule = [] → step s = .next (engineStep s))
    ∧ ∀ more, s.script ≠ [] → s.schedule = .engine :: more →
        step s = .next (engineStep { s with schedule := more })

/-- 43_host_interface.md R175: a run ends exactly when every event has been performed and BUSY = 0;
the model says it by the fault `runEnded` (log entry 5). Every other step goes on, and none is refused. -/
def Obligations.RunEndsExactlyWhenNothingIsEnabled : Prop :=
  ∀ s : State,
    (step s = .fault .runEnded ↔ s.script = [] ∧ s.busy = false)
    ∧ ((∃ t, step s = .next t) ↔ s.script ≠ [] ∨ s.busy = true)

/-- A word placed by `withFetchWord` is decoded and run by the very next step, on the state it was
placed into. -/
def Obligations.PlacedWordRunsNext : Prop :=
  ∀ (s : State) (nbits w : Nat) (i : Instr), decodeTableWord nbits w = some i →
    step (s.withFetchWord nbits w) = exec i s

/-- 43_host_interface.md R160: the host step is total and never blocks. -/
def Obligations.EveryTransactionCompletes : Prop :=
  ∀ (i : Instr) (s : State), ∃ t, exec i s = .next t

/-! ### Register transactions -/

/-- 43_host_interface.md R161: RD_REG returns the register INDEX names and changes nothing else. -/
def Obligations.RegisterReadReturnsRegister : Prop :=
  ∀ (index : Nat) (s : State),
    exec (.rdReg index) s = .next { s with
      replies :=
        (if index = 0 then s.op.setWidth 32
         else if index = 1 then
           ((BitVec.ofBool s.proto).setWidth 32 <<< 5) ||| (s.err.setWidth 32 <<< 2)
             ||| ((BitVec.ofBool s.done).setWidth 32 <<< 1) ||| (BitVec.ofBool s.busy).setWidth 32
         else if index = 2 then s.ilen
         else if index = 3 then s.olen
         else 0) :: s.replies }

/-- 43_host_interface.md R167: a write to STATUS, OLEN or a reserved register does nothing, BUSY or not. -/
def Obligations.ReadOnlyRegisterWritesIgnored : Prop :=
  ∀ (index : Nat) (d : Word) (s : State), index = 1 ∨ index = 3 ∨ 4 ≤ index →
    exec (.wrReg index d) s = .next s

/-- 43_host_interface.md R166: ILEN takes the low LEN_W bits of DATA, and nothing else changes. -/
def Obligations.IlenWriteTakesLowBits : Prop :=
  ∀ (d : Word) (s : State), s.busy = false →
    ∃ v : Word, exec (.wrReg 2 d) s = .next { s with ilen := v }
      ∧ ∀ k < 32, v.getLsbD k = (d.getLsbD k && decide (k < s.cfg.lenW))

/-- 43_host_interface.md R165: while BUSY = 1 a write to CTRL, ILEN or IBUF is dropped and sets PROTO;
a write to any other target has no effect and does not. -/
def Obligations.BusyWritesDropped : Prop :=
  ∀ s : State, s.busy = true →
    (∀ d, exec (.wrReg 0 d) s = .next { s with proto := true })
    ∧ (∀ d, exec (.wrReg 2 d) s = .next { s with proto := true })
    ∧ (∀ index d, exec (.wrIbuf index d) s = .next { s with proto := true })
    ∧ (∀ op, exec (.setop op) s = .next { s with proto := true })
    ∧ exec .encode s = .next { s with proto := true }
    ∧ exec .decode s = .next { s with proto := true }
    ∧ exec .startRsv2 s = .next { s with proto := true }
    ∧ exec .startRsv3 s = .next { s with proto := true }
    ∧ (∀ index d, index ≠ 0 → index ≠ 2 → exec (.wrReg index d) s = .next s)
    ∧ (∀ index d, exec (.wrObuf index d) s = .next s)
    ∧ ∀ index d, exec (.wrRsv index d) s = .next s

/-- 43_host_interface.md R163: SETOP stores OP, reserved values too, and nothing else changes. -/
def Obligations.SetopStoresOp : Prop :=
  ∀ s : State, s.busy = false →
    (∀ op, exec (.setop op) s = .next { s with op := op })
    ∧ ∀ d : Word, d.getLsbD 2 = false →
        exec (.wrReg 0 d) s = .next { s with op := d.extractLsb' 0 2 }

/-- 43_host_interface.md R164: what a START writes, with the OP of the same word, whatever OP was
before. From then on every OBUF entry reads as 8 drawn bits, and the engine step is enabled. That it is
the next step once the schedule is used up is the model's fair default (DESIGN CHOICE, log entry 4). -/
def Obligations.StartBeginsCommand : Prop :=
  ∀ s : State, s.busy = false →
    (∀ d : Word, d.getLsbD 2 = true →
      exec (.wrReg 0 d) s = .next
        { s with op := d.extractLsb' 0 2, busy := true, done := false, err := 0, olen := 0, obuf := [] })
    ∧ exec .encode s = .next
        { s with op := 0, busy := true, done := false, err := 0, olen := 0, obuf := [] }
    ∧ exec .decode s = .next
        { s with op := 1, busy := true, done := false, err := 0, olen := 0, obuf := [] }
    ∧ exec .startRsv2 s = .next
        { s with op := 2, busy := true, done := false, err := 0, olen := 0, obuf := [] }
    ∧ exec .startRsv3 s = .next
        { s with op := 3, busy := true, done := false, err := 0, olen := 0, obuf := [] }
    ∧ ∀ i t, (i = .encode ∨ i = .decode ∨ i = .startRsv2 ∨ i = .startRsv3) → exec i s = .next t →
        step { t with schedule := [] } = .next (engineStep { t with schedule := [] })
        ∧ ∀ index < s.cfg.maxOut, ∃ b : Byte, exec (.rdObuf index) t = .next
            { t with replies := b.setWidth 32 :: t.replies, draws := t.draws + 1 }

/-! ### Buffer and reserved transactions -/

/-- 43_host_interface.md R168: RD_IBUF returns the entry, or a 32-bit draw where the host has written
none since reset, or 0 out of range; BUSY does not matter. Only the count of draws moves with a draw. -/
def Obligations.IbufReadReturnsEntry : Prop :=
  ∀ (index : Nat) (s : State),
    (∀ v, index < s.cfg.maxIn → Memory.read s.ibuf index = some v →
      exec (.rdIbuf index) s = .next { s with replies := v :: s.replies })
    ∧ (index < s.cfg.maxIn → Memory.read s.ibuf index = none →
      ∃ v, exec (.rdIbuf index) s = .next { s with replies := v :: s.replies, draws := s.draws + 1 })
    ∧ (s.cfg.maxIn ≤ index → exec (.rdIbuf index) s = .next { s with replies := 0 :: s.replies })

/-- 43_host_interface.md R169: WR_IBUF writes its entry and leaves every other one; out of range or
while BUSY = 1 it is dropped and PROTO is set. An entry at or above ILEN is no command's input. -/
def Obligations.IbufWriteStoresEntry : Prop :=
  ∀ (index : Nat) (d : Word) (s : State),
    (s.busy = false → index < s.cfg.maxIn →
      ∃ m, exec (.wrIbuf index d) s = .next { s with ibuf := m }
        ∧ Memory.read m index = some d
        ∧ (∀ j, j ≠ index → Memory.read m j = Memory.read s.ibuf j)
        ∧ (s.ilen.toNat ≤ index → ∀ codes, s.inputIs codes → { s with ibuf := m }.inputIs codes))
    ∧ (s.busy = false → s.cfg.maxIn ≤ index →
      exec (.wrIbuf index d) s = .next { s with proto := true })
    ∧ (s.busy = true → exec (.wrIbuf index d) s = .next { s with proto := true })

/-- 43_host_interface.md R170: RD_OBUF returns the result's entry zero-extended, which a state that
meets the invariant holds; 0 out of range; in every other case 8 drawn bits, zero-extended. That the
last completed command succeeded is read as BUSY = 0, DONE = 1 and ERR = 0 (DEDUCED, log entry 15). -/
def Obligations.ObufReadReturnsResult : Prop :=
  ∀ (index : Nat) (s : State),
    (s.cfg.maxOut ≤ index → exec (.rdObuf index) s = .next { s with replies := 0 :: s.replies })
    ∧ (StateInv s → s.busy = false → s.done = true → s.err = 0 → index < s.olen.toNat →
      ∃ b, Memory.read s.obuf index = some b
        ∧ exec (.rdObuf index) s = .next { s with replies := b.setWidth 32 :: s.replies })
    ∧ (index < s.cfg.maxOut →
      s.busy = true ∨ s.done = false ∨ s.err ≠ 0 ∨ s.olen.toNat ≤ index →
      ∃ b : Byte, exec (.rdObuf index) s = .next
        { s with replies := b.setWidth 32 :: s.replies, draws := s.draws + 1 })

/-- 43_host_interface.md R171 and R172: a write to OBUF or to the reserved space does nothing, and a
read of the reserved space returns 0. -/
def Obligations.ReservedSpaceAndObufWrites : Prop :=
  ∀ (index : Nat) (d : Word) (s : State),
    exec (.wrObuf index d) s = .next s
    ∧ exec (.wrRsv index d) s = .next s
    ∧ exec (.rdRsv index) s = .next { s with replies := 0 :: s.replies }

/-- 20_memory.md R57: no read has a side effect. All that a read leaves behind is its answer and, where
it drew a free value, the count of draws; and a read that drew none answers the same when repeated. -/
def Obligations.ReadsHaveNoSideEffect : Prop :=
  ∀ (i : Instr) (s t : State),
    ((∃ k, i = .rdReg k) ∨ (∃ k, i = .rdIbuf k) ∨ (∃ k, i = .rdObuf k) ∨ ∃ k, i = .rdRsv k) →
    exec i s = .next t →
    (∃ v, t = { s with replies := v :: s.replies, draws := t.draws })
    ∧ (t.draws = s.draws → ∃ u, exec i t = .next u ∧ u.draws = s.draws
        ∧ u.replies.head? = t.replies.head?)

/-! ### The engine and whole commands -/

/-- 43_host_interface.md R173: the engine step always ends with BUSY = 0 and DONE = 1, with a legal ERR,
and changes neither OP nor what no command changes. -/
def Obligations.EngineStepCompletesCommand : Prop :=
  ∀ s : State,
    (engineStep s).busy = false ∧ (engineStep s).done = true ∧ (engineStep s).err.toNat ≤ 3
    ∧ (engineStep s).op = s.op ∧ s.sameOutsideCommand (engineStep s)

/-- 60_exceptions.md R204: a reserved OP, or ILEN above MAX_IN, completes with ERR = 3, whatever IBUF
holds. -/
def Obligations.IllegalCommandFails : Prop :=
  ∀ s : State, s.op = 2 ∨ s.op = 3 ∨ s.cfg.maxIn < s.ilen.toNat →
    (engineStep s).failedWith 3 ∧ (engineStep s).op = s.op ∧ s.sameOutsideCommand (engineStep s)

/-- 43_host_interface.md R174: START_RSV2 and START_RSV3 from the START to the end of the engine step,
the OP kept. STATUS then reads 0xE, with PROTO as it was. -/
def Obligations.ReservedStartEndsIllegal : Prop :=
  ∀ s : State, s.busy = false →
    (∃ t, exec .startRsv2 s = .next t ∧ (engineStep t).failedWith 3 ∧ (engineStep t).op = 2
      ∧ s.sameOutsideCommand (engineStep t)
      ∧ statusWord (engineStep t) = if s.proto then 0x2E#32 else 0xE#32)
    ∧ ∃ t, exec .startRsv3 s = .next t ∧ (engineStep t).failedWith 3 ∧ (engineStep t).op = 3
      ∧ s.sameOutsideCommand (engineStep t)
      ∧ statusWord (engineStep t) = if s.proto then 0x2E#32 else 0xE#32

/-- 41_encoder.md R119: ENCODE from its START to the end of its engine step. With ILEN up to MAX_IN the
result is Encode of the low bytes of the input, an entry the host never wrote being read as some value;
ILEN above MAX_IN is ILLEGAL_COMMAND. -/
def Obligations.EncodeCommandWritesResult : Prop :=
  ∀ s : State, s.busy = false → s.cfg.legal = true →
    ∃ t, exec .encode s = .next t ∧ (engineStep t).op = 0 ∧ s.sameOutsideCommand (engineStep t)
      ∧ (s.ilen.toNat ≤ s.cfg.maxIn → ∃ codes, s.mayRead codes
          ∧ (engineStep t).resultIs (encodeBytes (codes.map (fun c => c.setWidth 8))))
      ∧ (s.cfg.maxIn < s.ilen.toNat → (engineStep t).failedWith 3)

/-- 42_decoder.md R147: DECODE from its START to the end of its engine step. With ILEN up to MAX_IN it
ends with the result of Decode of the input, or with the code of its error, an entry the host never
wrote being read as some value; ILEN above MAX_IN is ILLEGAL_COMMAND. -/
def Obligations.DecodeCommandWritesResult : Prop :=
  ∀ s : State, s.busy = false → s.cfg.legal = true →
    ∃ t, exec .decode s = .next t ∧ (engineStep t).op = 1 ∧ s.sameOutsideCommand (engineStep t)
      ∧ (s.ilen.toNat ≤ s.cfg.maxIn → ∃ codes, s.mayRead codes
          ∧ (∀ out, decodeCodes codes = .ok out → (engineStep t).resultIs out)
          ∧ (decodeCodes codes = .err .invalidLength → (engineStep t).failedWith 1)
          ∧ (decodeCodes codes = .err .invalidCharacter → (engineStep t).failedWith 2))
      ∧ (s.cfg.maxIn < s.ilen.toNat → (engineStep t).failedWith 3)

/-- "All encode operations are error-free by construction" (41_encoder.md R119), on every input, the
entries the host never wrote among them: only ILEN above MAX_IN is an error. -/
def Obligations.EncodeNeverFailsInRange : Prop :=
  ∀ s : State, s.cfg.legal = true → s.op = 0 → s.ilen.toNat ≤ s.cfg.maxIn →
    (engineStep s).err = 0 ∧ (engineStep s).olen.toNat = 4 * ((s.ilen.toNat + 2) / 3)

/-- 41_encoder.md R120: bits [31:8] of an input entry do not affect ENCODE. -/
def Obligations.EncodeIgnoresHighBits : Prop :=
  ∀ (s u : State) (codes codes' : List Word), s.op = 0 → u.op = 0 → s.cfg = u.cfg →
    s.inputIs codes → u.inputIs codes' →
    codes.map (fun c => c.extractLsb' 0 8) = codes'.map (fun c => c.extractLsb' 0 8) →
    (engineStep s).err = (engineStep u).err ∧ (engineStep s).olen = (engineStep u).olen
      ∧ (engineStep s).obuf = (engineStep u).obuf

/-- 00_scope.md R13: no register holds codec state. Two idle machines with the same written input end a
command, START and engine step, alike, whatever their other registers, OBUF, ACC and earlier commands. -/
def Obligations.EarlierCommandsDoNotMatter : Prop :=
  ∀ (s u : State) (codes : List Word) (i : Instr), s.busy = false → u.busy = false → s.cfg = u.cfg →
    s.inputIs codes → u.inputIs codes →
    i = .encode ∨ i = .decode ∨ i = .startRsv2 ∨ i = .startRsv3 →
    ∃ s' u', exec i s = .next s' ∧ exec i u = .next u'
      ∧ (engineStep s').op = (engineStep u').op ∧ (engineStep s').err = (engineStep u').err
      ∧ (engineStep s').olen = (engineStep u').olen ∧ (engineStep s').obuf = (engineStep u').obuf

/-- 20_memory.md R66: no transaction between a START and its engine step changes what the engine reads,
so the engine's result is that of the values at the START. -/
def Obligations.InputSnapshotWhileBusy : Prop :=
  ∀ (i : Instr) (s t : State), s.busy = true → exec i s = .next t →
    t.busy = true ∧ t.cfg = s.cfg ∧ t.op = s.op ∧ t.ilen = s.ilen ∧ t.ibuf = s.ibuf
    ∧ ∀ codes, s.inputIs codes →
        (engineStep t).err = (engineStep s).err ∧ (engineStep t).olen = (engineStep s).olen
        ∧ (engineStep t).obuf = (engineStep s).obuf

/-- The round trip through the machine (95_test_vectors.md P3): an ENCODE result that the host copies
back into IBUF, and that fits it, decodes to the low bytes of the first input. -/
def Obligations.EncodedResultDecodesBack : Prop :=
  ∀ (s u : State) (codes : List Word), s.cfg.legal = true → s.op = 0 → s.ilen.toNat ≤ s.cfg.maxIn →
    s.inputIs codes → u.cfg = s.cfg → u.op = 1 → u.ilen = (engineStep s).olen →
    u.ilen.toNat ≤ u.cfg.maxIn →
    (∀ j < u.ilen.toNat, Memory.read u.ibuf j
      = (Memory.read (engineStep s).obuf j).map (fun b => b.setWidth 32)) →
    (engineStep u).resultIs (codes.map (fun c => c.setWidth 8))

/-! ### Whole-machine rules -/

/-- 60_exceptions.md R205: PROTO is set by exactly the listed events, which are dropped; it is sticky,
only a reset clears it, and no command depends on it. -/
def Obligations.ProtoSetByExactlyTheViolations : Prop :=
  (∀ (i : Instr) (s t : State), exec i s = .next t →
    (t.proto = true ↔ s.proto = true
      ∨ (s.busy = true ∧ ((∃ d, i = .wrReg 0 d) ∨ (∃ d, i = .wrReg 2 d) ∨ (∃ op, i = .setop op)
          ∨ i = .encode ∨ i = .decode ∨ i = .startRsv2 ∨ i = .startRsv3))
      ∨ ∃ k d, i = .wrIbuf k d ∧ (s.busy = true ∨ s.cfg.maxIn ≤ k))
    ∧ (protoViolation s i = true → t = { s with proto := true }))
  ∧ (∀ (s : State) (b : Bool),
      engineStep { s with proto := b } = { engineStep s with proto := b })
  ∧ (∀ s t : State, step s = .next t → s.proto = true → t.proto = false →
      ∃ rest, s.script = .reset :: rest)
  ∧ ∀ s : State, ∃ t, step (s.withEvent .reset) = .next t ∧ t.proto = false

/-- 10_state.md section 7 (R32): among the transactions only a START changes BUSY, DONE or ERR, and it
sets ERR to 0; OLEN and OBUF change with it and in no other way. -/
def Obligations.OnlyStartChangesStatus : Prop :=
  ∀ (i : Instr) (s t : State), exec i s = .next t →
    (t.busy = s.busy ∧ t.done = s.done ∧ t.err = s.err ∧ t.olen = s.olen ∧ t.obuf = s.obuf)
    ∨ (s.busy = false
        ∧ (i = .encode ∨ i = .decode ∨ i = .startRsv2 ∨ i = .startRsv3
            ∨ ∃ d : Word, i = .wrReg 0 d ∧ d.getLsbD 2 = true)
        ∧ t.busy = true ∧ t.done = false ∧ t.err = 0 ∧ t.olen = 0 ∧ t.obuf = [])

/-- 70_reset_and_hazards.md R235: until its engine step a command's result cannot be seen. OLEN reads 0
and every OBUF entry reads as 8 drawn bits. -/
def Obligations.ResultHiddenWhileBusy : Prop :=
  ∀ s : State, StateInv s → s.busy = true →
    exec (.rdReg 3) s = .next { s with replies := 0 :: s.replies }
    ∧ ∀ index < s.cfg.maxOut, ∃ b : Byte, exec (.rdObuf index) s = .next
        { s with replies := b.setWidth 32 :: s.replies, draws := s.draws + 1 }

/-- Every step keeps the invariant, from every state that meets it. -/
def Obligations.StepKeepsInvariant : Prop :=
  ∀ s t : State, StateInv s → step s = .next t → StateInv t

/-- The machine after reset meets the invariant, at every legal choice of the open parameters; the
parameters of `State.reset`, the model's choice (log entry 1), are legal. -/
def Obligations.ResetMeetsInvariant : Prop :=
  (∀ p : Params, p.legal = true → StateInv (State.resetWith p)) ∧ StateInv State.reset

/-- 10_state.md R33: the registers after reset, and no buffer entry holding a value. ACC, which the spec
leaves unspecified, is not spoken of. -/
def Obligations.ResetValues : Prop :=
  ∀ p : Params,
    (State.resetWith p).op = 0 ∧ (State.resetWith p).busy = false ∧ (State.resetWith p).done = false
    ∧ (State.resetWith p).err = 0 ∧ (State.resetWith p).proto = false ∧ (State.resetWith p).ilen = 0
    ∧ (State.resetWith p).olen = 0 ∧ readReg (State.resetWith p) 0 = 0 ∧ (∀ i, Memory.read (State.resetWith p).ibuf i = none)
    ∧ ∀ j, Memory.read (State.resetWith p).obuf j = none

/-- 70_reset_and_hazards.md section 1 (R230, R231), with the values of 10_state.md R33: a reset event, in
any state and also while a command is in flight, sets every register to its reset value at once, leaves
no buffer entry holding a value, and drops the command. That a reset is an event of the script, and
keeps the parameters, the script, the schedule and the replies, is the model's choice (DESIGN CHOICE,
log entry 13). -/
def Obligations.ResetEventFromAnyState : Prop :=
  ∀ s : State, ∃ t, step (s.withEvent .reset) = .next t
    ∧ t.op = 0 ∧ t.busy = false ∧ t.done = false ∧ t.err = 0 ∧ t.proto = false ∧ t.ilen = 0 ∧ t.olen = 0
    ∧ (∀ i, Memory.read t.ibuf i = none) ∧ (∀ j, Memory.read t.obuf j = none)
    ∧ t.cfg = s.cfg ∧ t.script = s.script ∧ t.schedule = s.schedule ∧ t.replies = s.replies

/-- 70_reset_and_hazards.md R240 says that a command in flight eventually ends. The bound on the number
of steps is the model's: the length of the finite schedule, after which the engine moves (DESIGN CHOICE,
log entry 4). -/
def Obligations.CommandInFlightEnds : Prop :=
  ∀ s : State, s.busy = true →
    ∃ k ≤ s.schedule.length + 1, ∃ t, Host.Core.run core k s = .next t ∧ t.busy = false

/-- 00_scope.md R5: MAX_OUT holds every result of an input of at most MAX_IN entries, and OLEN_W bits
hold MAX_OUT. -/
def Obligations.MaxOutHoldsEveryResult : Prop :=
  ∀ p : Params,
    (∀ bytes, bytes.length ≤ p.maxIn → (encodeBytes bytes).length ≤ p.maxOut)
    ∧ (∀ codes out, codes.length ≤ p.maxIn → decodeCodes codes = .ok out → out.length ≤ p.maxOut)
    ∧ p.maxOut ≤ 2 ^ p.olenW - 1
    ∧ ∀ w, 1 ≤ w → p.maxOut ≤ 2 ^ w - 1 → p.olenW ≤ w

/-! ### The alphabet -/

/-- 40_alphabet.md R100: the code column of the alphabet table. -/
def Obligations.EncLutIsTheAlphabet : Prop :=
  (List.range 64).map (fun i => encLut (BitVec.ofNat 6 i))
    = (([0x41, 0x42, 0x43, 0x44, 0x45, 0x46, 0x47, 0x48, 0x49, 0x4A, 0x4B, 0x4C, 0x4D] : List Byte)
      ++ [0x4E, 0x4F, 0x50, 0x51, 0x52, 0x53, 0x54, 0x55, 0x56, 0x57, 0x58, 0x59, 0x5A]
      ++ [0x61, 0x62, 0x63, 0x64, 0x65, 0x66, 0x67, 0x68, 0x69, 0x6A, 0x6B, 0x6C, 0x6D]
      ++ [0x6E, 0x6F, 0x70, 0x71, 0x72, 0x73, 0x74, 0x75, 0x76, 0x77, 0x78, 0x79, 0x7A]
      ++ [0x30, 0x31, 0x32, 0x33, 0x34, 0x35, 0x36, 0x37, 0x38, 0x39, 0x2B, 0x2F])

/-- 40_alphabet.md R103: the two lookups are exact inverses. -/
def Obligations.LutsAreExactInverses : Prop :=
  (∀ i : BitVec 6, decLut ((encLut i).setWidth 32) = some i)
  ∧ ∀ (c : Word) (v : BitVec 6), decLut c = some v → (encLut v).setWidth 32 = c

/-- 40_alphabet.md R104: all 32 bits are compared; nothing above 0x7F, no control character, no space,
no newline and neither URL-safe character is valid. -/
def Obligations.DecLutComparesAllBits : Prop :=
  (∀ c : Word, c.extractLsb' 8 24 ≠ 0 → decLut c = none)
  ∧ (∀ c : Word, 0x7F < c.toNat → decLut c = none)
  ∧ (∀ c : Word, c.toNat ≤ 0x20 → decLut c = none)
  ∧ decLut 0x0A#32 = none ∧ decLut 0x2D#32 = none ∧ decLut 0x5F#32 = none ∧ decLut 0x7F#32 = none

/-- 40_alphabet.md R105: PAD is not in the alphabet, in either direction. -/
def Obligations.PadIsOutsideTheAlphabet : Prop :=
  decLut 0x3D#32 = none ∧ ∀ i : BitVec 6, encLut i ≠ 0x3D#8

/-! ### The encoder -/

/-- 41_encoder.md R115 and R110: Encode is its groups' output in order, group `k` taking the entries
from `3k` up, an absent byte as 0. -/
def Obligations.EncodeIsGroupByGroup : Prop :=
  ∀ bytes : List Byte,
    encodeBytes bytes = (List.range ((bytes.length + 2) / 3)).flatMap (fun k =>
      encGroup (bytes.getD (3 * k) 0) (bytes.getD (3 * k + 1) 0) (bytes.getD (3 * k + 2) 0)
        (min 3 (bytes.length - 3 * k)))

/-- 41_encoder.md R112 and R113: the slices of a group in terms of its bytes, and its padding. -/
def Obligations.EncGroupSlicesAndPads : Prop :=
  ∀ b0 b1 b2 : Byte,
    encGroup b0 b1 b2 3 = [encLut (b0.extractLsb' 2 6), encLut (b0.extractLsb' 0 2 ++ b1.extractLsb' 4 4),
      encLut (b1.extractLsb' 0 4 ++ b2.extractLsb' 6 2), encLut (b2.extractLsb' 0 6)]
    ∧ encGroup b0 b1 0 2 = [encLut (b0.extractLsb' 2 6), encLut (b0.extractLsb' 0 2 ++ b1.extractLsb' 4 4),
      encLut (b1.extractLsb' 0 4 ++ 0#2), 0x3D#8]
    ∧ encGroup b0 0 0 1 = [encLut (b0.extractLsb' 2 6), encLut (b0.extractLsb' 0 2 ++ 0#4), 0x3D#8, 0x3D#8]

/-- 41_encoder.md R116: the length law. -/
def Obligations.EncodeLengthLaw : Prop :=
  ∀ bytes : List Byte, (encodeBytes bytes).length = 4 * ((bytes.length + 2) / 3)

/-- 41_encoder.md R117: the padding law, PAD appearing nowhere else. -/
def Obligations.EncodePaddingLaw : Prop :=
  ∀ bytes : List Byte,
    (bytes.length % 3 = 0 → 0x3D#8 ∉ encodeBytes bytes)
    ∧ (bytes.length % 3 = 1 → ∃ out, encodeBytes bytes = out ++ [0x3D#8, 0x3D#8] ∧ 0x3D#8 ∉ out)
    ∧ (bytes.length % 3 = 2 → ∃ out, encodeBytes bytes = out ++ [0x3D#8] ∧ 0x3D#8 ∉ out)

/-- 41_encoder.md R118: every output code is an alphabet code or PAD, and is below 0x80. -/
def Obligations.EncodeOutputAlphabet : Prop :=
  ∀ (bytes : List Byte), ∀ c ∈ encodeBytes bytes, (c = 0x3D#8 ∨ ∃ i, c = encLut i) ∧ c.toNat < 0x80

/-! ### The decoder -/

/-- 42_decoder.md R131: Strip removes the whole trailing run of PAD and nothing else. -/
def Obligations.StripRemovesTrailingPads : Prop :=
  ∀ codes : List Word,
    (∃ k, codes = strip codes ++ List.replicate k 0x3D#32) ∧ (strip codes).getLast? ≠ some 0x3D#32

/-- 42_decoder.md R145: Decode as a whole. The length check comes first, then the characters, then the
groups' bytes in order, group `k` taking the characters from `4k` up, a missing one as 0. -/
def Obligations.DecodeFollowsItsSteps : Prop :=
  ∀ codes : List Word,
    ((strip codes).length % 4 = 1 → decodeCodes codes = .err .invalidLength)
    ∧ ((strip codes).length % 4 ≠ 1 → (∃ c ∈ strip codes, decLut c = none) →
        decodeCodes codes = .err .invalidCharacter)
    ∧ ((strip codes).length % 4 ≠ 1 → (∀ c ∈ strip codes, decLut c ≠ none) →
        decodeCodes codes = .ok ((List.range (((strip codes).length + 3) / 4)).flatMap (fun k =>
          decGroup (((strip codes)[4 * k]?.bind decLut).getD 0)
            (((strip codes)[4 * k + 1]?.bind decLut).getD 0)
            (((strip codes)[4 * k + 2]?.bind decLut).getD 0)
            (((strip codes)[4 * k + 3]?.bind decLut).getD 0)
            (min 4 ((strip codes).length - 4 * k)))))

/-- 42_decoder.md R137: the bytes of a group in terms of its values. -/
def Obligations.DecGroupBytes : Prop :=
  ∀ v0 v1 v2 v3 : BitVec 6,
    decGroup v0 v1 v2 v3 4 = [v0 ++ v1.extractLsb' 4 2, v1.extractLsb' 0 4 ++ v2.extractLsb' 2 4,
      v2.extractLsb' 0 2 ++ v3]
    ∧ decGroup v0 v1 v2 0 3 = [v0 ++ v1.extractLsb' 4 2, v1.extractLsb' 0 4 ++ v2.extractLsb' 2 4]
    ∧ decGroup v0 v1 0 0 2 = [v0 ++ v1.extractLsb' 4 2]

/-- 42_decoder.md R140: the length of a successful result. -/
def Obligations.DecodeLengthLaw : Prop :=
  ∀ (codes : List Word) (out : List Byte), decodeCodes codes = .ok out →
    out.length = 3 * ((strip codes).length / 4)
      + (if (strip codes).length % 4 = 2 then 1 else if (strip codes).length % 4 = 3 then 2 else 0)

/-- 42_decoder.md R142: the number of trailing PADs is not checked; any number more or fewer decodes alike. -/
def Obligations.PaddingCountIsNotChecked : Prop :=
  ∀ (codes : List Word) (k : Nat), decodeCodes (codes ++ List.replicate k 0x3D#32) = decodeCodes codes

/-- 42_decoder.md R143: in a last group of 2 or 3 characters the unused low bits produce no output, and
Decode does not require them to be 0. Two inputs of valid characters whose stripped forms, 2 or 3 mod 4
long, differ in the last character only, and there in its unused bits only, both decode, to the same
bytes. -/
def Obligations.UnusedBitsAreDiscarded : Prop :=
  (∀ v0 v1 v1' : BitVec 6, v1.extractLsb' 4 2 = v1'.extractLsb' 4 2 →
    decGroup v0 v1 0 0 2 = decGroup v0 v1' 0 0 2)
  ∧ (∀ v0 v1 v2 v2' : BitVec 6, v2.extractLsb' 2 4 = v2'.extractLsb' 2 4 →
    decGroup v0 v1 v2 0 3 = decGroup v0 v1 v2' 0 3)
  ∧ ∀ (codes codes' front : List Word) (c c' : Word) (v v' : BitVec 6),
      strip codes = front ++ [c] → strip codes' = front ++ [c'] → (∀ x ∈ front, decLut x ≠ none) →
      decLut c = some v → decLut c' = some v' →
      (front.length % 4 = 1 ∧ v.extractLsb' 4 2 = v'.extractLsb' 4 2)
        ∨ (front.length % 4 = 2 ∧ v.extractLsb' 2 4 = v'.extractLsb' 2 4) →
      ∃ out, decodeCodes codes = .ok out ∧ decodeCodes codes' = .ok out

/-- 42_decoder.md R141: a PAD that is not in the trailing run is an invalid character, if the length
check passes. -/
def Obligations.InteriorPadIsInvalid : Prop :=
  ∀ codes : List Word, 0x3D#32 ∈ strip codes → (strip codes).length % 4 ≠ 1 →
    decodeCodes codes = .err .invalidCharacter

/-- 42_decoder.md R146: the round-trip law. -/
def Obligations.DecodeOfEncodeIsIdentity : Prop :=
  ∀ bytes : List Byte, decodeCodes ((encodeBytes bytes).map (fun c => c.setWidth 32)) = .ok bytes
end

