-- ==== Sys2Proof/Laws/Codec.lean ====
section
/-! SUPPORT. Small lemmas of the two transforms: the lookups, the groups, the strip, and what a
successful decode is. -/

namespace Sys2Proof.Machine

/-- A valid character is the code of the alphabet entry its value names. -/
theorem decLut_toNat {c : Word} {v : BitVec 6} (h : decLut c = some v) : c.toNat = (encLut v).toNat := by
  have h6 : ∀ n, n < 64 → (BitVec.ofNat 6 n).toNat = n := fun n hn => by
    rw [BitVec.toNat_ofNat]; omega
  unfold decLut at h
  split at h
  · cases h
    rw [encLut, h6 _ (by omega), if_pos (by omega), BitVec.toNat_ofNat]; omega
  split at h
  · cases h
    rw [encLut, h6 _ (by omega), if_neg (by omega), if_pos (by omega), BitVec.toNat_ofNat]; omega
  split at h
  · cases h
    rw [encLut, h6 _ (by omega), if_neg (by omega), if_neg (by omega), if_pos (by omega),
      BitVec.toNat_ofNat]; omega
  split at h
  · next hc => cases h; rw [hc]; decide
  split at h
  · next hc => cases h; rw [hc]; decide
  · cases h

/-- Every alphabet code is a printable ASCII character. -/
theorem encLut_range : ∀ i : BitVec 6, 0x20 < (encLut i).toNat ∧ (encLut i).toNat < 0x80 := by decide

@[simp] theorem encGroup_length (b0 b1 b2 : Byte) (m : Nat) : (encGroup b0 b1 b2 m).length = 4 := rfl

/-- A trailing PAD does not change what is left. -/
theorem strip_append_pad (codes : List Word) : strip (codes ++ [padCode]) = strip codes := by
  induction codes with
  | nil => simp [strip]
  | cons c cs ih => simp only [List.cons_append, strip, ih]

/-- No run of trailing PADs changes what is left. -/
theorem strip_append_pads (codes : List Word) (k : Nat) :
    strip (codes ++ List.replicate k padCode) = strip codes := by
  induction k with
  | zero => simp
  | succ k ih => rw [List.replicate_succ', ← List.append_assoc, strip_append_pad, ih]

/-- Nothing is stripped where the last code is not PAD. -/
theorem strip_of_getLast? {codes : List Word} (h : codes.getLast? ≠ some padCode) :
    strip codes = codes := by
  induction codes with
  | nil => rfl
  | cons c cs ih =>
    cases cs with
    | nil =>
      have hc : c ≠ padCode := fun hc => h (by simp [hc])
      simp [strip, hc]
    | cons d ds => rw [strip, ih (by simpa using h)]; simp

/-- A sequence has no values exactly when one of its characters is invalid. -/
theorem lutAll_eq_none_iff {codes : List Word} :
    lutAll codes = none ↔ ∃ c ∈ codes, decLut c = none := by
  induction codes with
  | nil => simp [lutAll]
  | cons c cs ih =>
    cases h : decLut c with
    | none => simp [lutAll, h]
    | some v =>
      cases h2 : lutAll cs with
      | none => simpa [lutAll, h, h2] using ih.1 h2
      | some vs => simpa [lutAll, h, h2] using mt ih.2 (by simp [h2])

/-- The values of a sequence, one by one. -/
theorem lutAll_eq_some {codes : List Word} {vs : List (BitVec 6)} (h : lutAll codes = some vs) :
    vs.length = codes.length ∧ ∀ i : Nat, vs[i]? = codes[i]?.bind decLut := by
  induction codes generalizing vs with
  | nil => cases h; simp
  | cons c cs ih =>
    cases h1 : decLut c with
    | none => simp [lutAll, h1] at h
    | some v =>
      cases h2 : lutAll cs with
      | none => simp [lutAll, h1, h2] at h
      | some ws =>
        simp only [lutAll, h1, h2, Option.some.injEq] at h
        subst h
        obtain ⟨hl, hi⟩ := ih h2
        refine ⟨by simp [hl], fun i => ?_⟩
        cases i with
        | zero => simp [h1]
        | succ i => simpa using hi i

/-- The values of two sequences joined. -/
theorem lutAll_append (a b : List Word) :
    lutAll (a ++ b) = (lutAll a).bind fun vs => (lutAll b).map (vs ++ ·) := by
  induction a with
  | nil => cases h : lutAll b <;> simp [lutAll, h]
  | cons c cs ih =>
    cases h1 : decLut c with
    | none => simp [lutAll, h1]
    | some v => cases h2 : lutAll cs <;> cases h3 : lutAll b <;> simp [lutAll, h1, h2, h3, ih]

/-- What a successful decode has done. -/
theorem decodeCodes_eq_ok {codes : List Word} {out : List Byte} (h : decodeCodes codes = .ok out) :
    (strip codes).length % 4 ≠ 1 ∧ ∃ vs, lutAll (strip codes) = some vs ∧ out = unpack vs := by
  rw [decodeCodes] at h
  split at h
  · cases h
  · next hn =>
    refine ⟨hn, ?_⟩
    split at h
    · cases h
    · next vs hv => cases h; exact ⟨vs, hv, rfl⟩

end Sys2Proof.Machine
end

