-- ==== Sys2Proof/Laws/State.lean ====
section
/-! SUPPORT. One lemma per field per update of the state: each update is read off without unfolding it. -/

namespace Sys2Proof.Machine

@[simp] theorem State.setProto_cfg (s : State) : s.setProto.cfg = s.cfg := rfl
@[simp] theorem State.setProto_op (s : State) : s.setProto.op = s.op := rfl
@[simp] theorem State.setProto_busy (s : State) : s.setProto.busy = s.busy := rfl
@[simp] theorem State.setProto_done (s : State) : s.setProto.done = s.done := rfl
@[simp] theorem State.setProto_err (s : State) : s.setProto.err = s.err := rfl
@[simp] theorem State.setProto_proto (s : State) : s.setProto.proto = true := rfl
@[simp] theorem State.setProto_ilen (s : State) : s.setProto.ilen = s.ilen := rfl
@[simp] theorem State.setProto_olen (s : State) : s.setProto.olen = s.olen := rfl
@[simp] theorem State.setProto_ibuf (s : State) : s.setProto.ibuf = s.ibuf := rfl
@[simp] theorem State.setProto_obuf (s : State) : s.setProto.obuf = s.obuf := rfl
@[simp] theorem State.setProto_acc (s : State) : s.setProto.acc = s.acc := rfl
@[simp] theorem State.setProto_draws (s : State) : s.setProto.draws = s.draws := rfl
@[simp] theorem State.setProto_script (s : State) : s.setProto.script = s.script := rfl
@[simp] theorem State.setProto_schedule (s : State) : s.setProto.schedule = s.schedule := rfl
@[simp] theorem State.setProto_replies (s : State) : s.setProto.replies = s.replies := rfl

@[simp] theorem State.reply_cfg (s : State) (v : Word) : (s.reply v).cfg = s.cfg := rfl
@[simp] theorem State.reply_op (s : State) (v : Word) : (s.reply v).op = s.op := rfl
@[simp] theorem State.reply_busy (s : State) (v : Word) : (s.reply v).busy = s.busy := rfl
@[simp] theorem State.reply_done (s : State) (v : Word) : (s.reply v).done = s.done := rfl
@[simp] theorem State.reply_err (s : State) (v : Word) : (s.reply v).err = s.err := rfl
@[simp] theorem State.reply_proto (s : State) (v : Word) : (s.reply v).proto = s.proto := rfl
@[simp] theorem State.reply_ilen (s : State) (v : Word) : (s.reply v).ilen = s.ilen := rfl
@[simp] theorem State.reply_olen (s : State) (v : Word) : (s.reply v).olen = s.olen := rfl
@[simp] theorem State.reply_ibuf (s : State) (v : Word) : (s.reply v).ibuf = s.ibuf := rfl
@[simp] theorem State.reply_obuf (s : State) (v : Word) : (s.reply v).obuf = s.obuf := rfl
@[simp] theorem State.reply_acc (s : State) (v : Word) : (s.reply v).acc = s.acc := rfl
@[simp] theorem State.reply_draws (s : State) (v : Word) : (s.reply v).draws = s.draws := rfl
@[simp] theorem State.reply_script (s : State) (v : Word) : (s.reply v).script = s.script := rfl
@[simp] theorem State.reply_schedule (s : State) (v : Word) : (s.reply v).schedule = s.schedule := rfl
@[simp] theorem State.reply_replies (s : State) (v : Word) : (s.reply v).replies = v :: s.replies := rfl

@[simp] theorem State.tick_cfg (s : State) : s.tick.cfg = s.cfg := rfl
@[simp] theorem State.tick_op (s : State) : s.tick.op = s.op := rfl
@[simp] theorem State.tick_busy (s : State) : s.tick.busy = s.busy := rfl
@[simp] theorem State.tick_done (s : State) : s.tick.done = s.done := rfl
@[simp] theorem State.tick_err (s : State) : s.tick.err = s.err := rfl
@[simp] theorem State.tick_proto (s : State) : s.tick.proto = s.proto := rfl
@[simp] theorem State.tick_ilen (s : State) : s.tick.ilen = s.ilen := rfl
@[simp] theorem State.tick_olen (s : State) : s.tick.olen = s.olen := rfl
@[simp] theorem State.tick_ibuf (s : State) : s.tick.ibuf = s.ibuf := rfl
@[simp] theorem State.tick_obuf (s : State) : s.tick.obuf = s.obuf := rfl
@[simp] theorem State.tick_acc (s : State) : s.tick.acc = s.acc := rfl
@[simp] theorem State.tick_draws (s : State) : s.tick.draws = s.draws + 1 := rfl
@[simp] theorem State.tick_script (s : State) : s.tick.script = s.script := rfl
@[simp] theorem State.tick_schedule (s : State) : s.tick.schedule = s.schedule := rfl
@[simp] theorem State.tick_replies (s : State) : s.tick.replies = s.replies := rfl

@[simp] theorem State.start_cfg (s : State) (op : BitVec 2) : (s.start op).cfg = s.cfg := rfl
@[simp] theorem State.start_op (s : State) (op : BitVec 2) : (s.start op).op = op := rfl
@[simp] theorem State.start_busy (s : State) (op : BitVec 2) : (s.start op).busy = true := rfl
@[simp] theorem State.start_done (s : State) (op : BitVec 2) : (s.start op).done = false := rfl
@[simp] theorem State.start_err (s : State) (op : BitVec 2) : (s.start op).err = errNone := rfl
@[simp] theorem State.start_proto (s : State) (op : BitVec 2) : (s.start op).proto = s.proto := rfl
@[simp] theorem State.start_ilen (s : State) (op : BitVec 2) : (s.start op).ilen = s.ilen := rfl
@[simp] theorem State.start_olen (s : State) (op : BitVec 2) : (s.start op).olen = 0 := rfl
@[simp] theorem State.start_ibuf (s : State) (op : BitVec 2) : (s.start op).ibuf = s.ibuf := rfl
@[simp] theorem State.start_obuf (s : State) (op : BitVec 2) : (s.start op).obuf = [] := rfl
@[simp] theorem State.start_acc (s : State) (op : BitVec 2) : (s.start op).acc = s.acc := rfl
@[simp] theorem State.start_draws (s : State) (op : BitVec 2) : (s.start op).draws = s.draws := rfl
@[simp] theorem State.start_script (s : State) (op : BitVec 2) : (s.start op).script = s.script := rfl
@[simp] theorem State.start_schedule (s : State) (op : BitVec 2) : (s.start op).schedule = s.schedule := rfl
@[simp] theorem State.start_replies (s : State) (op : BitVec 2) : (s.start op).replies = s.replies := rfl

@[simp] theorem State.complete_cfg (s : State) (err : BitVec 3) (out : List Byte) : (s.complete err out).cfg = s.cfg := rfl
@[simp] theorem State.complete_op (s : State) (err : BitVec 3) (out : List Byte) : (s.complete err out).op = s.op := rfl
@[simp] theorem State.complete_busy (s : State) (err : BitVec 3) (out : List Byte) : (s.complete err out).busy = false := rfl
@[simp] theorem State.complete_done (s : State) (err : BitVec 3) (out : List Byte) : (s.complete err out).done = true := rfl
@[simp] theorem State.complete_err (s : State) (err : BitVec 3) (out : List Byte) : (s.complete err out).err = err := rfl
@[simp] theorem State.complete_proto (s : State) (err : BitVec 3) (out : List Byte) : (s.complete err out).proto = s.proto := rfl
@[simp] theorem State.complete_ilen (s : State) (err : BitVec 3) (out : List Byte) : (s.complete err out).ilen = s.ilen := rfl
@[simp] theorem State.complete_olen (s : State) (err : BitVec 3) (out : List Byte) : (s.complete err out).olen = BitVec.ofNat 32 out.length := rfl
@[simp] theorem State.complete_ibuf (s : State) (err : BitVec 3) (out : List Byte) : (s.complete err out).ibuf = s.ibuf := rfl
@[simp] theorem State.complete_obuf (s : State) (err : BitVec 3) (out : List Byte) : (s.complete err out).obuf = Memory.writeAll [] 0 out := rfl
@[simp] theorem State.complete_acc (s : State) (err : BitVec 3) (out : List Byte) : (s.complete err out).acc = Config.anyAcc s.draws := rfl
@[simp] theorem State.complete_draws (s : State) (err : BitVec 3) (out : List Byte) : (s.complete err out).draws = s.draws + 1 := rfl
@[simp] theorem State.complete_script (s : State) (err : BitVec 3) (out : List Byte) : (s.complete err out).script = s.script := rfl
@[simp] theorem State.complete_schedule (s : State) (err : BitVec 3) (out : List Byte) : (s.complete err out).schedule = s.schedule := rfl
@[simp] theorem State.complete_replies (s : State) (err : BitVec 3) (out : List Byte) : (s.complete err out).replies = s.replies := rfl

@[simp] theorem State.resetDevice_cfg (s : State) : s.resetDevice.cfg = s.cfg := rfl
@[simp] theorem State.resetDevice_op (s : State) : s.resetDevice.op = 0 := rfl
@[simp] theorem State.resetDevice_busy (s : State) : s.resetDevice.busy = false := rfl
@[simp] theorem State.resetDevice_done (s : State) : s.resetDevice.done = false := rfl
@[simp] theorem State.resetDevice_err (s : State) : s.resetDevice.err = errNone := rfl
@[simp] theorem State.resetDevice_proto (s : State) : s.resetDevice.proto = false := rfl
@[simp] theorem State.resetDevice_ilen (s : State) : s.resetDevice.ilen = 0 := rfl
@[simp] theorem State.resetDevice_olen (s : State) : s.resetDevice.olen = 0 := rfl
@[simp] theorem State.resetDevice_ibuf (s : State) : s.resetDevice.ibuf = [] := rfl
@[simp] theorem State.resetDevice_obuf (s : State) : s.resetDevice.obuf = [] := rfl
@[simp] theorem State.resetDevice_acc (s : State) : s.resetDevice.acc = Config.anyAcc s.draws := rfl
@[simp] theorem State.resetDevice_draws (s : State) : s.resetDevice.draws = s.draws + 1 := rfl
@[simp] theorem State.resetDevice_script (s : State) : s.resetDevice.script = s.script := rfl
@[simp] theorem State.resetDevice_schedule (s : State) : s.resetDevice.schedule = s.schedule := rfl
@[simp] theorem State.resetDevice_replies (s : State) : s.resetDevice.replies = s.replies := rfl

@[simp] theorem State.withEvent_cfg (s : State) (e : HostEvent) : (s.withEvent e).cfg = s.cfg := rfl
@[simp] theorem State.withEvent_op (s : State) (e : HostEvent) : (s.withEvent e).op = s.op := rfl
@[simp] theorem State.withEvent_busy (s : State) (e : HostEvent) : (s.withEvent e).busy = s.busy := rfl
@[simp] theorem State.withEvent_done (s : State) (e : HostEvent) : (s.withEvent e).done = s.done := rfl
@[simp] theorem State.withEvent_err (s : State) (e : HostEvent) : (s.withEvent e).err = s.err := rfl
@[simp] theorem State.withEvent_proto (s : State) (e : HostEvent) : (s.withEvent e).proto = s.proto := rfl
@[simp] theorem State.withEvent_ilen (s : State) (e : HostEvent) : (s.withEvent e).ilen = s.ilen := rfl
@[simp] theorem State.withEvent_olen (s : State) (e : HostEvent) : (s.withEvent e).olen = s.olen := rfl
@[simp] theorem State.withEvent_ibuf (s : State) (e : HostEvent) : (s.withEvent e).ibuf = s.ibuf := rfl
@[simp] theorem State.withEvent_obuf (s : State) (e : HostEvent) : (s.withEvent e).obuf = s.obuf := rfl
@[simp] theorem State.withEvent_acc (s : State) (e : HostEvent) : (s.withEvent e).acc = s.acc := rfl
@[simp] theorem State.withEvent_draws (s : State) (e : HostEvent) : (s.withEvent e).draws = s.draws := rfl
@[simp] theorem State.withEvent_script (s : State) (e : HostEvent) : (s.withEvent e).script = e :: s.script := rfl
@[simp] theorem State.withEvent_schedule (s : State) (e : HostEvent) : (s.withEvent e).schedule = if s.busy then .host :: s.schedule else s.schedule := rfl
@[simp] theorem State.withEvent_replies (s : State) (e : HostEvent) : (s.withEvent e).replies = s.replies := rfl

/-- A guarded write while BUSY = 1. -/
theorem State.whileIdle_busy (s : State) (f : State → State) (h : s.busy = true) :
    s.whileIdle f = s.setProto := by simp [State.whileIdle, h]

/-- A guarded write while BUSY = 0. -/
theorem State.whileIdle_idle (s : State) (f : State → State) (h : s.busy = false) :
    s.whileIdle f = f s := by simp [State.whileIdle, h]

/-- All that a guarded write can do. -/
theorem State.whileIdle_cases (s : State) (f : State → State) :
    (s.busy = true ∧ s.whileIdle f = s.setProto) ∨ (s.busy = false ∧ s.whileIdle f = f s) := by
  cases h : s.busy
  · exact .inr ⟨rfl, s.whileIdle_idle f h⟩
  · exact .inl ⟨rfl, s.whileIdle_busy f h⟩

end Sys2Proof.Machine
end

