-- ==== Sys2Proof/Laws/Effects.lean ====
section
/-! SUPPORT. What a transaction, a turn and a step can do, said once. -/

namespace Sys2Proof.Machine

/-- The command words that carry START = 1. -/
def isStart : Instr → Bool
  | .wrReg index d => decide (index = 0) && cmdStart d
  | .encode => true
  | .decode => true
  | .startRsv2 => true
  | .startRsv3 => true
  | .rdReg _ => false
  | .rdIbuf _ => false
  | .wrIbuf _ _ => false
  | .rdObuf _ => false
  | .wrObuf _ _ => false
  | .rdRsv _ => false
  | .wrRsv _ _ => false
  | .setop _ => false

/-- The effects a transaction can have on the state. -/
inductive Effect (i : Instr) (s : State) : State → Prop where
  /-- A read, or an ignored write: only the answer and the count of draws can change. -/
  | answer (replies : List Word) (draws : Nat) (h : protoViolation s i = false) :
      Effect i s { s with replies := replies, draws := draws }
  /-- A host protocol violation. -/
  | violation (h : protoViolation s i = true) : Effect i s s.setProto
  /-- OP written, no command started. -/
  | setOp (op : BitVec 2) (hb : s.busy = false) (h : protoViolation s i = false) :
      Effect i s { s with op := op }
  /-- ILEN written. -/
  | setIlen (d : Word) (hb : s.busy = false) (h : protoViolation s i = false) :
      Effect i s { s with ilen := ilenOfData s.cfg d }
  /-- An IBUF entry written. -/
  | setIbuf (index : Nat) (d : Word) (hk : index < s.cfg.maxIn) (hb : s.busy = false)
      (h : protoViolation s i = false) : Effect i s { s with ibuf := Memory.write s.ibuf index d }
  /-- A command started. -/
  | start (op : BitVec 2) (hi : isStart i = true) (hb : s.busy = false)
      (h : protoViolation s i = false) : Effect i s (s.start op)

/-- A read or an ignored write leaves its state alone. -/
theorem Effect.same {i : Instr} {s : State} (h : protoViolation s i = false) : Effect i s s :=
  .answer s.replies s.draws h

/-- The effect of a START. -/
theorem startCommand_effect {i : Instr} {s : State} (op : BitVec 2) (hi : isStart i = true)
    (hv : protoViolation s i = s.busy) : Effect i s (startCommand op s) := by
  obtain ⟨hb, h⟩ | ⟨hb, h⟩ := s.whileIdle_cases (fun s => s.start op)
  · rw [startCommand, h]; exact .violation (hv.trans hb)
  · rw [startCommand, h]; exact .start op hi hb (hv.trans hb)

/-- The effect of SETOP. -/
theorem setop_effect {i : Instr} {s : State} (op : BitVec 2) (hv : protoViolation s i = s.busy) :
    Effect i s (s.whileIdle fun s => { s with op := op }) := by
  obtain ⟨hb, h⟩ | ⟨hb, h⟩ := s.whileIdle_cases (fun s => { s with op := op })
  · rw [h]; exact .violation (hv.trans hb)
  · rw [h]; exact .setOp op hb (hv.trans hb)

/-- A command word's write to CTRL. -/
theorem execCmdWord_effect (d : Word) (s : State) :
    ∃ t, execCmdWord d s = .next t ∧ Effect (.wrReg 0 d) s t := by
  have hv : protoViolation s (.wrReg 0 d) = s.busy := by simp [protoViolation]
  unfold execCmdWord
  split
  · next hs =>
    have hi : isStart (.wrReg 0 d) = true := by simp [isStart, hs]
    split <;> exact ⟨_, rfl, startCommand_effect _ hi hv⟩
  · exact ⟨_, rfl, setop_effect _ hv⟩

/-- Every transaction answers a next state by one of the effects: the inversion lemma of `exec`. -/
theorem exec_effect (i : Instr) (s : State) : ∃ t, exec i s = .next t ∧ Effect i s t := by
  cases i with
  | rdReg k => exact ⟨_, rfl, .answer (readReg s k :: s.replies) s.draws rfl⟩
  | wrReg k d =>
    simp only [exec, execWrReg]
    split
    · exact execCmdWord_effect d s
    · refine ⟨_, rfl, ?_⟩
      obtain ⟨hb, h⟩ | ⟨hb, h⟩ := s.whileIdle_cases (fun s => { s with ilen := ilenOfData s.cfg d })
      · rw [writeIlen, h]; exact .violation (by simp [protoViolation, hb])
      · rw [writeIlen, h]; exact .setIlen d hb (by simp [protoViolation, hb])
    · next h0 h2 => exact ⟨_, rfl, .same (by simp_all [protoViolation])⟩
  | rdIbuf k =>
    simp only [exec, execRdIbuf]
    split
    · split
      · next v _ => exact ⟨_, rfl, .answer (v :: s.replies) s.draws rfl⟩
      · exact ⟨_, rfl, .answer (Config.anyWord s.draws k :: s.replies) (s.draws + 1) rfl⟩
    · exact ⟨_, rfl, .answer (0 :: s.replies) s.draws rfl⟩
  | wrIbuf k d =>
    simp only [exec, execWrIbuf]
    refine ⟨_, rfl, ?_⟩
    obtain ⟨hb, h⟩ | ⟨hb, h⟩ := s.whileIdle_cases (fun s =>
      if k < s.cfg.maxIn then { s with ibuf := Memory.write s.ibuf k d } else s.setProto)
    · rw [h]; exact .violation (by simp [protoViolation, hb])
    · rw [h]
      split
      · next hk => exact .setIbuf k d hk hb (by simp [protoViolation, hb, hk])
      · next hk => exact .violation (by simp [protoViolation, Nat.not_lt.1 hk])
  | rdObuf k =>
    simp only [exec, execRdObuf]
    split
    · split
      · next b _ => exact ⟨_, rfl, .answer (b.setWidth 32 :: s.replies) s.draws rfl⟩
      · exact ⟨_, rfl,
          .answer ((Config.anyByte s.draws k).setWidth 32 :: s.replies) (s.draws + 1) rfl⟩
    · exact ⟨_, rfl, .answer (0 :: s.replies) s.draws rfl⟩
  | wrObuf k d => exact ⟨_, rfl, .same rfl⟩
  | rdRsv k => exact ⟨_, rfl, .answer (0 :: s.replies) s.draws rfl⟩
  | wrRsv k d => exact ⟨_, rfl, .same rfl⟩
  | setop op => exact ⟨_, rfl, setop_effect op rfl⟩
  | encode => exact ⟨_, rfl, startCommand_effect 0 rfl rfl⟩
  | decode => exact ⟨_, rfl, startCommand_effect 1 rfl rfl⟩
  | startRsv2 => exact ⟨_, rfl, startCommand_effect 2 rfl rfl⟩
  | startRsv3 => exact ⟨_, rfl, startCommand_effect 3 rfl rfl⟩

/-- The next state of a transaction, by its effect. -/
theorem effect_of_exec {i : Instr} {s t : State} (h : exec i s = .next t) : Effect i s t := by
  obtain ⟨u, hu, he⟩ := exec_effect i s
  rw [hu] at h
  cases h
  exact he

/-- All that the choice of the next step can be, with what it takes off the script and the schedule. -/
theorem nextTurn_cases (s : State) :
    (s.script = [] ∧ s.busy = false ∧ nextTurn s = .ended)
    ∨ (s.busy = true ∧ (s.script = [] ∨ s.schedule = []) ∧ nextTurn s = .engine s)
    ∨ (∃ more, s.busy = true ∧ s.script ≠ [] ∧ s.schedule = .engine :: more
        ∧ nextTurn s = .engine { s with schedule := more })
    ∨ (∃ e rest more, s.busy = true ∧ s.script = e :: rest ∧ s.schedule = .host :: more
        ∧ nextTurn s = .host e { s with script := rest, schedule := more })
    ∨ ∃ e rest, s.busy = false ∧ s.script = e :: rest
        ∧ nextTurn s = .host e { s with script := rest } := by
  unfold nextTurn
  split
  · next hs =>
    by_cases hb : s.busy = true
    · exact .inr (.inl ⟨hb, .inl hs, by rw [if_pos hb]⟩)
    · exact .inl ⟨hs, by simpa using hb, by rw [if_neg hb]⟩
  · next e rest hs =>
    by_cases hb : s.busy = true
    · rw [if_pos hb]
      split
      · next hc => exact .inr (.inl ⟨hb, .inr hc, rfl⟩)
      · next more hc => exact .inr (.inr (.inl ⟨more, hb, by simp [hs], hc, rfl⟩))
      · next more hc => exact .inr (.inr (.inr (.inl ⟨e, rest, more, hb, hs, hc, rfl⟩)))
    · rw [if_neg hb]
      exact .inr (.inr (.inr (.inr ⟨e, rest, by simpa using hb, hs, rfl⟩)))

/-- Every next state is the engine's or the host's, from the state with other events pending: the
inversion lemma of `step`. -/
theorem step_cases {s t : State} (h : step s = .next t) :
    ∃ script schedule,
      (s.busy = true ∧ t = engineStep { s with script := script, schedule := schedule })
      ∨ (s.script = .reset :: script
          ∧ t = State.resetDevice { s with script := script, schedule := schedule })
      ∨ ∃ f, s.script = .frame f :: script
          ∧ Effect (decode f) { s with script := script, schedule := schedule } t := by
  have host : ∀ e rest schedule, s.script = e :: rest →
      hostStep e { s with script := rest, schedule := schedule } = .next t →
      (s.script = .reset :: rest
          ∧ t = State.resetDevice { s with script := rest, schedule := schedule })
      ∨ ∃ f, s.script = .frame f :: rest
          ∧ Effect (decode f) { s with script := rest, schedule := schedule } t := by
    intro e rest schedule hs h
    cases e with
    | frame f => exact .inr ⟨f, hs, effect_of_exec h⟩
    | reset => cases h; exact .inl ⟨hs, rfl⟩
  unfold step at h
  obtain ⟨-, -, hn⟩ | ⟨hb, -, hn⟩ | ⟨more, hb, -, -, hn⟩ | ⟨e, rest, more, -, hs, -, hn⟩ | ⟨e, rest, -, hs, hn⟩ :=
    nextTurn_cases s <;> rw [hn] at h
  · cases h
  · cases h; exact ⟨s.script, s.schedule, .inl ⟨hb, rfl⟩⟩
  · cases h; exact ⟨s.script, more, .inl ⟨hb, rfl⟩⟩
  · exact ⟨rest, more, .inr (host e rest more hs h)⟩
  · exact ⟨rest, s.schedule, .inr (host e rest s.schedule hs h)⟩

end Sys2Proof.Machine
end

