-- ==== Sys2Proof/Laws/Memory.lean ====
section
/-! SUPPORT. The laws of the buffers: a read after a write, the canonical form, and the entries a
sequence of writes leaves. -/

namespace Sys2Proof.Machine.Memory

variable {w : Nat}

@[simp] theorem read_nil (i : Nat) : Memory.read ([] : Memory w) i = none := rfl

/-- An entry below every listed index is not listed. -/
theorem read_below {m : Memory w} {i : Nat} (h : ∀ c ∈ m, i < c.1) : Memory.read m i = none := by
  induction m with
  | nil => rfl
  | cons c m ih =>
    have hc : i < c.1 := h c (by simp)
    simp only [Memory.read, if_neg (Nat.ne_of_gt hc)]
    exact ih fun d hd => h d (by simp [hd])

theorem read_write_same (m : Memory w) (i : Nat) (v : BitVec w) :
    Memory.read (Memory.write m i v) i = some v := by
  induction m with
  | nil => simp [Memory.write, Memory.read]
  | cons c m ih =>
    obtain ⟨k, u⟩ := c
    simp only [Memory.write]
    split
    · simp [Memory.read]
    · split
      · simp [Memory.read]
      · next h => simp [Memory.read, Ne.symm h, ih]

theorem read_write_other (m : Memory w) (i j : Nat) (v : BitVec w) (h : j ≠ i) :
    Memory.read (Memory.write m i v) j = Memory.read m j := by
  induction m with
  | nil => simp [Memory.write, Memory.read, h.symm]
  | cons c m ih =>
    obtain ⟨k, u⟩ := c
    simp only [Memory.write]
    split
    · simp [Memory.read, h.symm]
    · split
      · next h' => simp [Memory.read, ← h', h.symm]
      · simp only [Memory.read, ih]

/-- The entries after a write: the written one, and entries that were there. -/
theorem mem_write {m : Memory w} {i : Nat} {v : BitVec w} {c : Nat × BitVec w}
    (h : c ∈ Memory.write m i v) : c = (i, v) ∨ c ∈ m := by
  induction m with
  | nil => simpa [Memory.write] using h
  | cons d m ih =>
    obtain ⟨k, u⟩ := d
    simp only [Memory.write] at h
    split at h
    · simpa using h
    · split at h
      · rcases List.mem_cons.1 h with h | h
        · exact .inl h
        · exact .inr (List.mem_cons_of_mem _ h)
      · rcases List.mem_cons.1 h with h | h
        · exact .inr (by simp [h])
        · exact (ih h).imp_right (List.mem_cons_of_mem _)

theorem wf_cons {k : Nat} {u : BitVec w} {m : Memory w} :
    Memory.wf ((k, u) :: m) = true ↔ (∀ c ∈ m, k < c.1) ∧ Memory.wf m = true := by
  simp [Memory.wf, List.all_eq_true]

/-- A write keeps the canonical form. -/
theorem wf_write {m : Memory w} (i : Nat) (v : BitVec w) (h : Memory.wf m = true) :
    Memory.wf (Memory.write m i v) = true := by
  induction m with
  | nil => rfl
  | cons c m ih =>
    obtain ⟨k, u⟩ := c
    obtain ⟨hk, hm⟩ := wf_cons.1 h
    simp only [Memory.write]
    split
    · next hlt =>
      refine wf_cons.2 ⟨fun c hc => ?_, h⟩
      rcases List.mem_cons.1 hc with rfl | hc
      · exact hlt
      · exact hlt.trans (hk c hc)
    · split
      · next heq => exact wf_cons.2 ⟨fun c hc => heq ▸ hk c hc, hm⟩
      · refine wf_cons.2 ⟨fun c hc => ?_, ih hm⟩
        rcases mem_write hc with rfl | hc
        · show k < i
          omega
        · exact hk c hc

/-- A sequence of writes keeps the canonical form. -/
theorem wf_writeAll {m : Memory w} (j : Nat) (vs : List (BitVec w)) (h : Memory.wf m = true) :
    Memory.wf (Memory.writeAll m j vs) = true := by
  induction vs generalizing m j with
  | nil => exact h
  | cons v vs ih => exact ih (j + 1) (wf_write j v h)

/-- Canonical buffers that read alike are equal. -/
theorem ext_of_wf {m n : Memory w} (hm : Memory.wf m = true) (hn : Memory.wf n = true)
    (h : ∀ i, Memory.read m i = Memory.read n i) : m = n := by
  induction m generalizing n with
  | nil =>
    cases n with
    | nil => rfl
    | cons c n => exact absurd (h c.1) (by simp [Memory.read])
  | cons c m ih =>
    obtain ⟨k, u⟩ := c
    cases n with
    | nil => exact absurd (h k) (by simp [Memory.read])
    | cons d n =>
      obtain ⟨l, x⟩ := d
      obtain ⟨hk, hm'⟩ := wf_cons.1 hm
      obtain ⟨hl, hn'⟩ := wf_cons.1 hn
      have hkl : k = l := by
        rcases Nat.lt_trichotomy k l with hlt | heq | hgt
        · have := h k
          rw [read_below (m := (l, x) :: n)] at this
          · simp [Memory.read] at this
          · intro c hc
            rcases List.mem_cons.1 hc with rfl | hc
            exacts [hlt, hlt.trans (hl c hc)]
        · exact heq
        · have := h l
          rw [read_below (m := (k, u) :: m)] at this
          · simp [Memory.read] at this
          · intro c hc
            rcases List.mem_cons.1 hc with rfl | hc
            exacts [hgt, hgt.trans (hk c hc)]
      subst hkl
      have hux : u = x := by simpa [Memory.read] using h k
      subst hux
      congr 1
      refine ih hm' hn' fun i => ?_
      by_cases hik : k = i
      · subst hik
        rw [read_below hk, read_below hl]
      · simpa [Memory.read, hik] using h i

/-- Writing above every listed index appends. -/
theorem write_above {m : Memory w} {i : Nat} (v : BitVec w) (h : ∀ c ∈ m, c.1 < i) :
    Memory.write m i v = m ++ [(i, v)] := by
  induction m with
  | nil => rfl
  | cons c m ih =>
    obtain ⟨k, u⟩ := c
    have hk : k < i := h (k, u) (by simp)
    simp only [Memory.write, if_neg (Nat.not_lt.2 hk.le), if_neg (Nat.ne_of_gt hk), List.cons_append]
    rw [ih fun c hc => h c (by simp [hc])]

/-- Writing a sequence above every listed index appends its entries. -/
theorem writeAll_above (vs : List (BitVec w)) {m : Memory w} {j : Nat} (h : ∀ c ∈ m, c.1 < j) :
    Memory.writeAll m j vs = m ++ (List.range' j vs.length).zip vs := by
  induction vs generalizing m j with
  | nil => simp [Memory.writeAll]
  | cons v vs ih =>
    rw [Memory.writeAll, write_above v h, ih]
    · simp [List.range'_succ]
    · intro c hc
      rcases List.mem_append.1 hc with hc | hc
      · exact (h c hc).trans (Nat.lt_succ_self j)
      · simp only [List.mem_singleton] at hc
        simp [hc]

/-- The indices of a result written from entry 0: exactly 0 to its length less 1. -/
theorem keys_writeAll_nil (vs : List (BitVec w)) :
    (Memory.writeAll [] 0 vs).map Prod.fst = List.range vs.length := by
  rw [writeAll_above vs (m := []) (j := 0) (by simp)]
  simp [List.map_fst_zip, List.range_eq_range']

theorem read_zip_range' (vs : List (BitVec w)) (j i : Nat) (h : j ≤ i) :
    Memory.read ((List.range' j vs.length).zip vs) i = vs[i - j]? := by
  induction vs generalizing j with
  | nil => simp
  | cons v vs ih =>
    simp only [List.length_cons, List.range'_succ, List.zip_cons_cons, Memory.read]
    by_cases hji : j = i
    · simp [hji]
    · rw [if_neg hji, ih (j + 1) (by omega), show i - j = (i - (j + 1)) + 1 by omega]
      rfl

/-- A result written from entry 0 reads back, and nothing else is listed. -/
@[simp] theorem read_writeAll_nil (vs : List (BitVec w)) (i : Nat) :
    Memory.read (Memory.writeAll [] 0 vs) i = vs[i]? := by
  rw [writeAll_above vs (m := []) (j := 0) (by simp)]
  simpa using read_zip_range' vs 0 i (Nat.zero_le i)

/-- A listed index holds a value. -/
theorem exists_read_of_key {m : Memory w} {i : Nat} (h : i ∈ m.map Prod.fst) :
    ∃ v, Memory.read m i = some v := by
  induction m with
  | nil => simp at h
  | cons c m ih =>
    obtain ⟨k, u⟩ := c
    by_cases hk : k = i
    · exact ⟨u, by simp [Memory.read, hk]⟩
    · simp only [Memory.read, if_neg hk]
      apply ih
      simpa [Ne.symm hk] using h

end Sys2Proof.Machine.Memory
end

