-- ==== Sys2Proof/Laws/Engine.lean ====
section
/-! SUPPORT. What the engine step can do, said once, and what the engine reads. -/

namespace Sys2Proof.Machine

/-- Every engine step completes the command with some error code and result, and an error has no
result. -/
theorem engineStep_cases (s : State) :
    (commandIllegal s = true ∧ engineStep s = s.complete errIllegalCommand [])
    ∨ (commandIllegal s = false ∧ s.op = 0
        ∧ engineStep s = s.complete errNone (encodeBytes (inputBytes s)))
    ∨ (commandIllegal s = false ∧ s.op ≠ 0
        ∧ ((∃ out, decodeCodes (inputEntries s) = .ok out ∧ engineStep s = s.complete errNone out)
          ∨ ∃ kind, decodeCodes (inputEntries s) = .err kind
              ∧ engineStep s = s.complete kind.code [])) := by
  by_cases hi : commandIllegal s = true
  · exact .inl ⟨hi, by rw [engineStep, if_pos hi, State.completeError]⟩
  · have hf : commandIllegal s = false := by simpa using hi
    by_cases ho : s.op = 0
    · exact .inr (.inl ⟨hf, ho, by rw [engineStep, if_neg hi, if_pos ho, encodeBody]⟩)
    · refine .inr (.inr ⟨hf, ho, ?_⟩)
      have he : engineStep s = decodeBody s := by rw [engineStep, if_neg hi, if_neg ho]
      cases hd : decodeCodes (inputEntries s) with
      | ok out => exact .inl ⟨out, rfl, by simp only [he, decodeBody, hd]⟩
      | err kind => exact .inr ⟨kind, rfl, by simp only [he, decodeBody, hd, State.completeError]⟩

/-- When a command is illegal (60_exceptions.md R204). -/
theorem commandIllegal_iff (s : State) :
    commandIllegal s = true ↔ s.op = 2 ∨ s.op = 3 ∨ s.cfg.maxIn < s.ilen.toNat := by
  simp [commandIllegal, or_assoc]

@[simp] theorem inputEntries_length (s : State) : (inputEntries s).length = s.ilen.toNat := by
  simp [inputEntries]

@[simp] theorem inputBytes_length (s : State) : (inputBytes s).length = s.ilen.toNat := by
  simp [inputBytes]

/-- The engine reads exactly the input the host has written. -/
theorem inputEntries_of_inputIs {s : State} {codes : List Word} (h : s.inputIs codes) :
    inputEntries s = codes := by
  obtain ⟨hl, hr⟩ := h
  refine List.ext_getElem (by simp [hl]) fun i h1 h2 => ?_
  simp [inputEntries, inputEntry, hr i h2, List.getElem?_eq_getElem h2]

/-- A completed command whose result fits OLEN shows that result. -/
theorem complete_resultIs (s : State) (out : List Byte) (h : out.length < 2 ^ 32) :
    (s.complete errNone out).resultIs out := by
  refine ⟨rfl, rfl, rfl, ?_, fun j => ?_⟩
  · rw [State.complete_olen, BitVec.toNat_ofNat, Nat.mod_eq_of_lt h]
  · simp

/-- A command completed with an error shows none. -/
theorem complete_failedWith (s : State) (err : BitVec 3) : (s.complete err []).failedWith err :=
  ⟨rfl, rfl, rfl, rfl, fun _ => rfl⟩

/-- MAX_OUT fits OLEN. -/
theorem maxOut_lt {p : Params} (h : p.legal = true) : p.maxOut < 2 ^ 32 := by
  simp only [Params.legal, Bool.and_eq_true, decide_eq_true_eq] at h
  exact Nat.lt_log2_self.trans_le (Nat.pow_le_pow_right (by decide) h.2)

end Sys2Proof.Machine
end

