-- ==== Sys2Proof/Laws/PerInstr.lean ====
section
/-! SUPPORT. A statement about every instruction, proved per constructor: its encoding belongs to its
row of spec/opcode_table.json. -/

namespace Sys2Proof.Laws.MatchesRow

/-- The encoding of the instruction has the format of its row and the row's mask and match. -/
def Statement (i : Instr) : Prop := i.row.admits (encode i) = true

/-- A transaction's encoding matches a row by its HDR alone. -/
theorem admits_txn (row : TableRow) (hdr : BitVec 3) (index : Nat) (data : Word)
    (hf : row.isCmd = false) (hm : hdr.setWidth 32 &&& row.mask = row.value) :
    row.admits (txnFrame hdr index data) = true := by
  simp [TableRow.admits, txnFrame, hf, hm]

theorem rdReg (index : Nat) : Statement (.rdReg index) :=
  admits_txn _ _ _ _ rfl (by simp [Instr.row])
theorem wrReg (index : Nat) (data : Word) : Statement (.wrReg index data) :=
  admits_txn _ _ _ _ rfl (by simp [Instr.row])
theorem rdIbuf (index : Nat) : Statement (.rdIbuf index) :=
  admits_txn _ _ _ _ rfl (by simp [Instr.row])
theorem wrIbuf (index : Nat) (data : Word) : Statement (.wrIbuf index data) :=
  admits_txn _ _ _ _ rfl (by simp [Instr.row])
theorem rdObuf (index : Nat) : Statement (.rdObuf index) :=
  admits_txn _ _ _ _ rfl (by simp [Instr.row])
theorem wrObuf (index : Nat) (data : Word) : Statement (.wrObuf index data) :=
  admits_txn _ _ _ _ rfl (by simp [Instr.row])
theorem rdRsv (index : Nat) : Statement (.rdRsv index) :=
  admits_txn _ _ _ _ rfl (by simp [Instr.row])
theorem wrRsv (index : Nat) (data : Word) : Statement (.wrRsv index data) :=
  admits_txn _ _ _ _ rfl (by simp [Instr.row])
theorem setop (op : BitVec 2) : Statement (.setop op) := by
  revert op
  unfold Statement
  decide
theorem encode : Statement .encode := rfl
theorem decode : Statement .decode := rfl
theorem startRsv2 : Statement .startRsv2 := rfl
theorem startRsv3 : Statement .startRsv3 := rfl

end Sys2Proof.Laws.MatchesRow
end

