-- ==== Sys2Proof/Tests/Slice0.lean ====
section
/-! SUPPORT. Tests whose expected results are the spec's own words, tables and vectors (95_test_vectors.md
unless another file is named), and for every statement with hypotheses a state that meets them. -/

namespace Sys2Proof.Tests

open Sys2Proof Sys2Proof.Machine

/-! ### Well-formed instructions: an ill-formed term for each check -/

theorem test_wellFormed_index_limit :
    (Instr.rdReg (2 ^ 32 - 1)).wellFormed = true ∧ (Instr.rdReg (2 ^ 32)).wellFormed = false := by decide
theorem test_illFormed_indices :
    (Instr.wrReg (2 ^ 32) 0).wellFormed = false ∧ (Instr.rdIbuf (2 ^ 32)).wellFormed = false
    ∧ (Instr.wrIbuf (2 ^ 32) 0).wellFormed = false ∧ (Instr.rdObuf (2 ^ 32)).wellFormed = false
    ∧ (Instr.wrObuf (2 ^ 32) 0).wellFormed = false ∧ (Instr.rdRsv (2 ^ 32)).wellFormed = false
    ∧ (Instr.wrRsv (2 ^ 32) 0).wellFormed = false := by decide

/-! ### Decoding: words written out from 30_encoding.md R71 and R75, one for every constructor -/

/-- The table's TXN rows: three bits of HDR, the rest 0. -/
theorem test_decode_table_txn_rows :
    decodeTableWord 8 0b000 = some (.rdReg 0) ∧ decodeTableWord 8 0b001 = some (.wrReg 0 0)
    ∧ decodeTableWord 8 0b010 = some (.rdIbuf 0) ∧ decodeTableWord 8 0b011 = some (.wrIbuf 0 0)
    ∧ decodeTableWord 8 0b100 = some (.rdObuf 0) ∧ decodeTableWord 8 0b101 = some (.wrObuf 0 0)
    ∧ decodeTableWord 8 0b110 = some (.rdRsv 0) ∧ decodeTableWord 8 0b111 = some (.wrRsv 0 0) := by decide

/-- The table's CMD rows, with ignored bits 0 and with ignored bits 1. -/
theorem test_decode_table_cmd_rows :
    decodeTableWord 32 0x00000002 = some (.setop 2) ∧ decodeTableWord 32 0xFFFFFFFB = some (.setop 3)
    ∧ decodeTableWord 32 0x00000004 = some .encode ∧ decodeTableWord 32 0xFFFFFFFC = some .encode
    ∧ decodeTableWord 32 0x00000005 = some .decode ∧ decodeTableWord 32 0xFFFFFFFD = some .decode
    ∧ decodeTableWord 32 0x00000006 = some .startRsv2 ∧ decodeTableWord 32 0xFFFFFFFE = some .startRsv2
    ∧ decodeTableWord 32 0x00000007 = some .startRsv3
    ∧ decodeTableWord 32 0xFFFFFFFF = some .startRsv3 := by decide

/-- A whole transaction of 67 bits, `WR IBUF[7], 0x3D` of program P2: HDR 011, INDEX 7, DATA 0x3D. -/
theorem test_decode_whole_transaction :
    decodeTableWord 72 (0b011 + 7 * 2 ^ 3 + 0x3D * 2 ^ 35) = some (.wrIbuf 7 0x3D) := by decide

/-- No row has 16 bits. -/
theorem test_decode_unknown_length : decodeTableWord 16 0 = none := by decide

/-- Every operand bit of INDEX and DATA arrives. -/
theorem test_decode_all_ones :
    decode (.txn ⟨0b101#3, 0xFFFFFFFF#32, 0xFFFFFFFF#32⟩) = .wrObuf 0xFFFFFFFF 0xFFFFFFFF := by decide

/-! ### The alphabet (2.1) -/

/-- L2-A-1 to L2-A-8. -/
theorem test_encLut_corners :
    [0, 25, 26, 51, 52, 61, 62, 63].map (fun i => encLut (BitVec.ofNat 6 i))
      = ([0x41, 0x5A, 0x61, 0x7A, 0x30, 0x39, 0x2B, 0x2F] : List Byte) := by decide
/-- L2-A-9 to L2-A-11. -/
theorem test_decLut_valid :
    [0x54, 0x30, 0x39, 0x2B, 0x2F].map decLut
      = [some 19, some 52, some 61, some 62, some 63] := by decide
/-- L2-A-12 to L2-A-17. -/
theorem test_decLut_invalid :
    ([0x3D, 0x40, 0x5B, 0x60, 0x7B, 0x2C, 0x2E, 0x3A, 0x2D, 0x5F, 0x141, 0x10041, 0xFFFFFF41, 0xE9]
      ++ [0x1F600, 0xD800, 0x00, 0x20, 0x0A]).all (fun c => (decLut c).isNone) = true := by decide

/-! ### The encoder (1 and 2.2) -/

/-- L1-2, L1-3, L2-E-18. -/
theorem test_encode_man :
    encodeBytes [0x4D] = [0x54, 0x51, 0x3D, 0x3D] ∧ encodeBytes [0x4D, 0x61] = [0x54, 0x57, 0x45, 0x3D]
    ∧ encodeBytes [0x4D, 0x61, 0x6E, 0x21] = [0x54, 0x57, 0x46, 0x75, 0x49, 0x51, 0x3D, 0x3D] := by decide
/-- L2-E-5, L2-E-8, L2-E-10, L2-E-11. -/
theorem test_encode_bit_boundaries :
    encodeBytes [0xFF] = [0x2F, 0x77, 0x3D, 0x3D] ∧ encodeBytes [0xFB, 0xFF] = [0x2B, 0x2F, 0x38, 0x3D]
    ∧ encodeBytes [0x03, 0xE0] = [0x41, 0x2B, 0x41, 0x3D]
    ∧ encodeBytes [0x14, 0xFB, 0x9C, 0x03, 0xD9, 0x7E]
        = [0x46, 0x50, 0x75, 0x63, 0x41, 0x39, 0x6C, 0x2B] := by decide

/-! ### The decoder (1 and 2.3) -/

/-- L1-6, L2-D-5, L2-D-7, L2-D-8, L2-D-10, L2-D-19. -/
theorem test_decode_accepted :
    decodeCodes [0x54, 0x57, 0x46, 0x75, 0x49, 0x51] = .ok [0x4D, 0x61, 0x6E, 0x21]
    ∧ decodeCodes [0x54, 0x51, 0x3D] = .ok [0x4D]
    ∧ decodeCodes [0x54, 0x51, 0x3D, 0x3D, 0x3D, 0x3D, 0x3D] = .ok [0x4D]
    ∧ decodeCodes [0x54, 0x52, 0x3D, 0x3D] = .ok [0x4D]
    ∧ decodeCodes [0x54, 0x57, 0x46, 0x3D] = .ok [0x4D, 0x61]
    ∧ decodeCodes [0x54, 0x57, 0x46, 0x75, 0x3D, 0x3D, 0x3D, 0x3D] = .ok [0x4D, 0x61, 0x6E] := by decide
/-- L2-D-2, L2-D-3, L2-D-22, L2-D-23. -/
theorem test_decode_corners :
    decodeCodes [0x3D] = .ok [] ∧ decodeCodes [0x3D, 0x3D, 0x3D, 0x3D] = .ok []
    ∧ decodeCodes [0x2B, 0x2F, 0x2B, 0x2F] = .ok [0xFB, 0xFF, 0xBF]
    ∧ decodeCodes [0x41, 0x51, 0x49, 0x44] = .ok [0x01, 0x02, 0x03] := by decide
/-- L2-D-11, L2-D-13, L2-D-18, L2-D-29, L2-D-32. -/
theorem test_decode_invalidLength :
    decodeCodes [0x41, 0x3D, 0x3D, 0x3D] = .err .invalidLength
    ∧ decodeCodes [0x41, 0x40, 0x43, 0x44, 0x45] = .err .invalidLength
    ∧ decodeCodes [0x54, 0x51, 0x3D, 0x3D, 0x41] = .err .invalidLength
    ∧ decodeCodes [0x54, 0x57, 0x46, 0x75, 0x0A] = .err .invalidLength
    ∧ decodeCodes [0x54, 0x57, 0x46, 0x75, 0x141] = .err .invalidLength := by decide
/-- L1-7, L2-D-14, L2-D-17, L2-D-30, L2-D-33. -/
theorem test_decode_invalidCharacter :
    decodeCodes [0x54, 0x40, 0x51, 0x3D] = .err .invalidCharacter
    ∧ decodeCodes [0x41, 0x40, 0x43, 0x44] = .err .invalidCharacter
    ∧ decodeCodes [0x3D, 0x54, 0x51] = .err .invalidCharacter
    ∧ decodeCodes [0x54, 0x57, 0x46, 0x75, 0x20, 0x0A] = .err .invalidCharacter
    ∧ decodeCodes [0x54, 0x57, 0x46, 0x141] = .err .invalidCharacter := by decide

/-! ### Transactions (2.4), from small states -/

/-- The state of a transaction's answer; the state itself where there is none. -/
def after (i : Instr) (s : State) : State :=
  match exec i s with
  | .next t => t
  | .fault _ => s
  | .refused _ => s

/-- Just after reset, with OP, ILEN and the entries of IBUF given. -/
def loaded (op : BitVec 2) (codes : List Word) : State :=
  { State.reset with op := op, ilen := BitVec.ofNat 32 codes.length, ibuf := Memory.writeAll [] 0 codes }

/-- A command in flight. -/
def inFlight (op : BitVec 2) (codes : List Word) : State := { loaded op codes with busy := true }

/-- `Man` and `TWFu` as IBUF entries. -/
def man : List Word := [0x4D, 0x61, 0x6E]
/-- `TWFu` as IBUF entries. -/
def twfu : List Word := [0x54, 0x57, 0x46, 0x75]

/-- L2-H-1, L2-H-2. -/
theorem test_rdReg_reset :
    (List.range 5).map (fun k => (after (.rdReg k) State.reset).replies) = List.replicate 5 [0]
    ∧ (after (.rdReg 0xFFFFFFFF) State.reset).replies = [0] := by decide
/-- L2-H-13: STATUS 0x22 is DONE and PROTO; 10_state.md R23 places ERR = 2 at 0x8. -/
theorem test_rdReg_status :
    (after (.rdReg 1) { State.reset with done := true, proto := true }).replies = [0x22]
    ∧ (after (.rdReg 1) { State.reset with done := true, err := 2 }).replies = [0xA] := by decide
/-- L2-H-6. -/
theorem test_wrReg_ilen_narrows : (after (.wrReg 2 0x00010005) State.reset).ilen = 5 := by decide
/-- L2-H-3, L2-H-4, L2-H-5. -/
theorem test_wrReg_ctrl :
    (after (.wrReg 0 0x3) State.reset).op = 3 ∧ (after (.wrReg 0 0x3) State.reset).busy = false
    ∧ (after (.wrReg 0 0x8) State.reset) = State.reset
    ∧ (after (.wrReg 0 0xFFFFFFFC) (loaded 3 [])).op = 0
    ∧ (after (.wrReg 0 0xFFFFFFFC) (loaded 3 [])).busy = true := by decide
/-- L2-H-7. -/
theorem test_wrReg_ignored :
    after (.wrReg 1 0xFF) State.reset = State.reset ∧ after (.wrReg 3 7) State.reset = State.reset
    ∧ after (.wrReg 9 1) State.reset = State.reset := by decide
/-- L2-H-8 and 43_host_interface.md R169. -/
theorem test_wrIbuf_range :
    after (.wrIbuf 16 0x41) State.reset = { State.reset with proto := true }
    ∧ Memory.read (after (.wrIbuf 15 0x41) State.reset).ibuf 15 = some 0x41 := by decide
/-- L2-H-9. -/
theorem test_rdIbuf_out_of_range : (after (.rdIbuf 16) State.reset).replies = [0] := by decide
/-- 43_host_interface.md R168: the entry, also while BUSY = 1; an entry never written is a draw. -/
theorem test_rdIbuf_entry :
    (after (.rdIbuf 1) (inFlight 1 twfu)).replies = [0x57]
    ∧ (after (.rdIbuf 4) (inFlight 1 twfu)).draws = 1 := by decide
/-- L2-H-9; P1 reads `u` from OBUF[3]. -/
theorem test_rdObuf :
    (after (.rdObuf 24) State.reset).replies = [0]
    ∧ (after (.rdObuf 3) { State.reset with
        done := true, olen := 4, obuf := [(0, 0x54), (1, 0x57), (2, 0x46), (3, 0x75)] }).replies
      = [0x75] := by decide
/-- L2-H-18: an entry beyond OLEN is a draw. -/
theorem test_rdObuf_beyond_olen :
    (after (.rdObuf 1) { State.reset with done := true, olen := 1, obuf := [(0, 0x54)] }).draws = 1 := by
  decide
/-- L2-H-10, L2-H-11. -/
theorem test_ignored_and_reserved :
    after (.wrObuf 0 0x41) State.reset = State.reset ∧ after (.wrRsv 0 1) State.reset = State.reset
    ∧ (after (.rdRsv 0) State.reset).replies = [0] := by decide
/-- L2-H-3. -/
theorem test_setop : after (.setop 3) State.reset = { State.reset with op := 3 } := by decide
/-- L2-H-12: STATUS reads 0x1 and OLEN 0; 70_reset_and_hazards.md R237: the OP is the START's own. -/
theorem test_start :
    statusWord (after .decode { loaded 0 twfu with done := true, err := 2, olen := 9 }) = 0x1
    ∧ (after .decode { loaded 0 twfu with done := true, err := 2, olen := 9 }).olen = 0
    ∧ (after .decode (loaded 0 twfu)).op = 1 ∧ (after .encode (loaded 1 man)).op = 0
    ∧ (after .startRsv2 (loaded 1 man)).op = 2 ∧ (after .startRsv3 (loaded 1 man)).op = 3 := by decide
/-- L2-H-13, L2-H-14: a write while BUSY = 1 is dropped and sets PROTO. -/
theorem test_write_while_busy :
    after (.wrReg 2 2) (inFlight 1 twfu) = { inFlight 1 twfu with proto := true }
    ∧ after (.wrReg 0 4) (inFlight 1 twfu) = { inFlight 1 twfu with proto := true }
    ∧ after (.wrIbuf 0 0x41) (inFlight 1 twfu) = { inFlight 1 twfu with proto := true } := by decide

/-! ### Engine steps (2.4, 2.5, 3) -/

/-- P1: `Man` encodes to `TWFu`. -/
theorem test_engine_encode :
    (engineStep (inFlight 0 man)).obuf = [(0, 0x54), (1, 0x57), (2, 0x46), (3, 0x75)]
    ∧ (engineStep (inFlight 0 man)).olen = 4 ∧ statusWord (engineStep (inFlight 0 man)) = 0x2 := by decide
/-- L2-E-20: bits [31:8] are ignored. -/
theorem test_engine_encode_low_byte :
    (engineStep (inFlight 0 [0x14D, 0xFFFFFF61])).obuf
      = [(0, 0x54), (1, 0x57), (2, 0x45), (3, 0x3D)] := by decide
/-- 42_decoder.md R147, its worked example. -/
theorem test_engine_decode :
    (engineStep (inFlight 1 twfu)).obuf = [(0, 0x4D), (1, 0x61), (2, 0x6E)]
    ∧ (engineStep (inFlight 1 twfu)).olen = 3 ∧ statusWord (engineStep (inFlight 1 twfu)) = 0x2 := by decide
/-- L2-X-1, L2-X-2, L2-X-3: ERR 1, ERR 2, and ERR 1 before ERR 2. -/
theorem test_engine_decode_errors :
    statusWord (engineStep (inFlight 1 [0x41, 0x42, 0x43, 0x44, 0x45])) = 0x6
    ∧ statusWord (engineStep (inFlight 1 [0x54, 0x40, 0x51, 0x3D])) = 0xA
    ∧ statusWord (engineStep (inFlight 1 [0x41, 0x40, 0x43, 0x44, 0x45])) = 0x6 := by decide
/-- L2-X-6: an error in the second group leaves no result. -/
theorem test_engine_no_partial_result :
    (engineStep (inFlight 1 [0x41, 0x41, 0x41, 0x41, 0x40, 0x40, 0x40, 0x40])).olen = 0
    ∧ (engineStep (inFlight 1 [0x41, 0x41, 0x41, 0x41, 0x40, 0x40, 0x40, 0x40])).obuf = [] := by decide
/-- L2-H-15, L2-H-16: ILLEGAL_COMMAND. -/
theorem test_engine_illegal :
    statusWord (engineStep { inFlight 0 [] with ilen := 17 }) = 0xE
    ∧ statusWord (engineStep (inFlight 3 man)) = 0xE ∧ (engineStep (inFlight 3 man)).op = 3 := by decide

/-! ### Steps -/

/-- The state a step leads to; the state itself where it stops. -/
def stepped (s : State) : State :=
  match step s with
  | .next t => t
  | .fault _ => s
  | .refused _ => s

/-- P5, both schedules of its last write: before the engine step it is dropped, after it it lands. -/
theorem test_step_schedules :
    (stepped { inFlight 1 twfu with
      script := [.frame (.txn ⟨0b011#3, 0#32, 0x41#32⟩)], schedule := [.host] }).proto = true
    ∧ statusWord (stepped { inFlight 1 twfu with
      script := [.frame (.txn ⟨0b011#3, 0#32, 0x41#32⟩)], schedule := [.engine] }) = 0x2 := by decide
/-- L2-H-19: a reset drops the command in flight. -/
theorem test_step_reset :
    statusWord (stepped ({ inFlight 1 twfu with proto := true }.withEvent .reset)) = 0
    ∧ (stepped ({ inFlight 1 twfu with proto := true }.withEvent .reset)).olen = 0 := by decide
/-- 43_host_interface.md R175: after reset with nothing pending, no agent has a step. -/
theorem test_step_runEnded :
    (match step State.reset with | .fault .runEnded => true | .next _ => false | .refused _ => false) = true := by
  decide
/-- Every opcode-table word placed after reset runs as the first instruction. -/
theorem test_step_withFetchWord :
    (stepped (State.reset.withFetchWord 32 0x5)).op = 1 ∧ (stepped (State.reset.withFetchWord 32 0x5)).busy = true
    ∧ (stepped (State.reset.withFetchWord 8 0b110)).replies = [0]
    ∧ (stepped (State.reset.withFetchWord 8 0b001)) = State.reset := by decide

/-! ### Buffers -/

/-- Equal buffers are equal lists, in whatever order they were written. -/
theorem test_memory_canonical :
    Memory.write (Memory.write ([] : Memory 8) 2 0x2) 1 0x1 = [(1, 0x1), (2, 0x2)]
    ∧ Memory.write (Memory.write ([] : Memory 8) 1 0x1) 2 0x2 = [(1, 0x1), (2, 0x2)]
    ∧ Memory.wf State.reset.ibuf = true ∧ Memory.wf State.reset.obuf = true := by decide

/-! ### Witnesses: for each statement with hypotheses, values that meet them all -/

/-- A completed ENCODE of `Man`, as P1 leaves it. -/
def completed : State :=
  { loaded 0 man with
    done := true, olen := 4, obuf := [(0, 0x54), (1, 0x57), (2, 0x46), (3, 0x75)] }

theorem stateInv_completed : StateInv completed :=
  { params := by decide, ilenFits := by decide, errLegal := by decide, notBusyAndDone := by decide
    notDoneClean := by decide, errorEmpty := by decide, olenFits := by decide, ibufWf := by decide
    ibufInRange := by decide, obufHolds := by decide }

theorem stateInv_inFlight : StateInv (inFlight 1 twfu) :=
  { params := by decide, ilenFits := by decide, errLegal := by decide, notBusyAndDone := by decide
    notDoneClean := by decide, errorEmpty := by decide, olenFits := by decide, ibufWf := by decide
    ibufInRange := by decide, obufHolds := by decide }

theorem inputIs_man : (loaded 0 man).inputIs man := ⟨by decide, by decide⟩
theorem inputIs_inFlight : (inFlight 1 twfu).inputIs twfu := ⟨by decide, by decide⟩

theorem witness_CommandWordSelectsRow :
    0xFFFFFFFB#32 &&& 0x4#32 = 0x0#32 ∧ 0xFFFFFFFC#32 &&& 0x7#32 = 0x4#32
    ∧ 0x5#32 &&& 0x7#32 = 0x5#32 ∧ 0x6#32 &&& 0x7#32 = 0x6#32 ∧ 0xFFFFFFFF#32 &&& 0x7#32 = 0x7#32 := by decide
theorem witness_DecodeInvertsEncode :
    (Instr.wrIbuf (2 ^ 32 - 1) 0xFFFFFFFF).wellFormed = true ∧ (Instr.setop 3).wellFormed = true := by decide
theorem witness_StepRunsPendingInstruction :
    (State.reset.withFetchWord 8 0b110).script = [.frame (.txn ⟨0b110#3, 0#32, 0#32⟩)]
    ∧ (State.reset.withFetchWord 8 0b110).busy = false
    ∧ ((inFlight 1 twfu).withFetchWord 8 0b110).script = [.frame (.txn ⟨0b110#3, 0#32, 0#32⟩)]
    ∧ ((inFlight 1 twfu).withFetchWord 8 0b110).busy = true
    ∧ ((inFlight 1 twfu).withFetchWord 8 0b110).schedule = [.host] := by decide
theorem witness_StepRunsEngineWhileBusy :
    (inFlight 1 twfu).busy = true ∧ (inFlight 1 twfu).script = [] ∧ (inFlight 1 twfu).schedule = []
    ∧ { inFlight 1 twfu with script := [.reset], schedule := [.engine] }.script ≠ []
    ∧ { inFlight 1 twfu with script := [.reset], schedule := [.engine] }.schedule = [.engine] := by decide
theorem witness_PlacedWordRunsNext : decodeTableWord 32 0x7 = some .startRsv3 := by decide
/-- The indices of R167 at their boundaries. -/
theorem witness_ReadOnlyRegisterWritesIgnored :
    ∀ index ∈ [1, 3, 4], index = 1 ∨ index = 3 ∨ 4 ≤ index := by decide
/-- The idle state of IlenWriteTakesLowBits, SetopStoresOp, StartBeginsCommand and
ReservedStartEndsIllegal, with a SETOP word and a START word. -/
theorem witness_idle :
    (loaded 0 man).busy = false ∧ (0xFFFFFFFB#32).getLsbD 2 = false ∧ (0x4#32).getLsbD 2 = true := by decide
/-- The busy state of BusyWritesDropped, InputSnapshotWhileBusy and CommandInFlightEnds, and an index of
BusyWritesDropped's last register clause. -/
theorem witness_busy : (inFlight 1 twfu).busy = true ∧ (1 : Nat) ≠ 0 ∧ (1 : Nat) ≠ 2 := by decide
/-- The clauses of IbufReadReturnsEntry and IbufWriteStoresEntry, at the two sides of MAX_IN and of ILEN. -/
theorem witness_ibuf_clauses :
    2 < (loaded 0 man).cfg.maxIn ∧ Memory.read (loaded 0 man).ibuf 2 = some 0x6E
    ∧ 15 < (loaded 0 man).cfg.maxIn ∧ Memory.read (loaded 0 man).ibuf 15 = none
    ∧ (loaded 0 man).cfg.maxIn ≤ 16 ∧ (loaded 0 man).busy = false ∧ (inFlight 1 twfu).busy = true
    ∧ (loaded 0 man).ilen.toNat ≤ 3 := by decide
/-- The clauses of ObufReadReturnsResult, at the two sides of MAX_OUT and of OLEN; with
`stateInv_completed`. -/
theorem witness_ObufReadReturnsResult :
    completed.cfg.maxOut ≤ 24 ∧ completed.busy = false ∧ completed.done = true ∧ completed.err = 0
    ∧ 3 < completed.olen.toNat ∧ completed.olen.toNat ≤ 4 ∧ 23 < completed.cfg.maxOut
    ∧ (inFlight 1 twfu).busy = true ∧ State.reset.done = false := by decide
theorem witness_ReadsHaveNoSideEffect :
    exec (.rdReg 1) completed = .next (after (.rdReg 1) completed)
    ∧ (after (.rdReg 1) completed).draws = completed.draws
    ∧ exec (.rdIbuf 2) completed = .next (after (.rdIbuf 2) completed)
    ∧ (after (.rdIbuf 2) completed).draws = completed.draws
    ∧ exec (.rdObuf 3) completed = .next (after (.rdObuf 3) completed)
    ∧ (after (.rdObuf 3) completed).draws = completed.draws
    ∧ exec (.rdRsv 0) completed = .next (after (.rdRsv 0) completed) :=
  ⟨rfl, rfl, rfl, rfl, rfl, rfl, rfl⟩
theorem witness_IllegalCommandFails :
    (inFlight 2 man).op = 2 ∧ (inFlight 3 man).op = 3
    ∧ { inFlight 0 man with ilen := 17 }.cfg.maxIn < { inFlight 0 man with ilen := 17 }.ilen.toNat := by decide
/-- EncodeCommandWritesResult, DecodeCommandWritesResult and EncodeNeverFailsInRange, at ILEN = MAX_IN and
above it, the input not all written. -/
theorem witness_command_range :
    { loaded 0 man with ilen := 16 }.busy = false ∧ { loaded 0 man with ilen := 16 }.cfg.legal = true
    ∧ { loaded 0 man with ilen := 16 }.op = 0
    ∧ { loaded 0 man with ilen := 16 }.ilen.toNat ≤ { loaded 0 man with ilen := 16 }.cfg.maxIn
    ∧ { loaded 0 man with ilen := 17 }.cfg.maxIn < { loaded 0 man with ilen := 17 }.ilen.toNat := by decide
theorem witness_EncodeIgnoresHighBits :
    (loaded 0 [0x14D]).op = 0 ∧ (loaded 0 [0x4D]).op = 0 ∧ (loaded 0 [0x14D]).cfg = (loaded 0 [0x4D]).cfg
    ∧ (loaded 0 [0x14D]).inputIs [0x14D] ∧ (loaded 0 [0x4D]).inputIs [0x4D]
    ∧ ([0x14D#32].map (fun c => c.extractLsb' 0 8)) = [0x4D#32].map (fun c => c.extractLsb' 0 8) :=
  ⟨rfl, rfl, rfl, ⟨by decide, by decide⟩, ⟨by decide, by decide⟩, by decide⟩
theorem witness_EarlierCommandsDoNotMatter :
    (loaded 0 man).busy = false ∧ completed.busy = false ∧ (loaded 0 man).cfg = completed.cfg
    ∧ (loaded 0 man).inputIs man ∧ completed.inputIs man ∧ loaded 0 man ≠ completed :=
  ⟨rfl, rfl, rfl, inputIs_man, ⟨by decide, by decide⟩, by decide⟩
theorem witness_InputSnapshotWhileBusy :
    (inFlight 1 twfu).busy = true
    ∧ exec (.wrIbuf 0 0x41) (inFlight 1 twfu) = .next (after (.wrIbuf 0 0x41) (inFlight 1 twfu))
    ∧ (inFlight 1 twfu).inputIs twfu := ⟨rfl, rfl, inputIs_inFlight⟩
/-- P1's result copied into IBUF, as P3 copies its own. -/
theorem witness_EncodedResultDecodesBack :
    (loaded 0 man).cfg.legal = true ∧ (loaded 0 man).op = 0
    ∧ (loaded 0 man).ilen.toNat ≤ (loaded 0 man).cfg.maxIn ∧ (loaded 0 man).inputIs man
    ∧ (loaded 1 twfu).cfg = (loaded 0 man).cfg ∧ (loaded 1 twfu).op = 1
    ∧ (loaded 1 twfu).ilen = (engineStep (loaded 0 man)).olen
    ∧ (loaded 1 twfu).ilen.toNat ≤ (loaded 1 twfu).cfg.maxIn
    ∧ ∀ j < (loaded 1 twfu).ilen.toNat, Memory.read (loaded 1 twfu).ibuf j
        = (Memory.read (engineStep (loaded 0 man)).obuf j).map (fun b => b.setWidth 32) :=
  ⟨by decide, rfl, by decide, inputIs_man, rfl, rfl, by decide, by decide, by decide⟩
/-- A violation, and a reset step that clears PROTO, for ProtoSetByExactlyTheViolations and
OnlyStartChangesStatus. -/
theorem witness_ProtoSetByExactlyTheViolations :
    exec (.wrIbuf 16 0) completed = .next (after (.wrIbuf 16 0) completed)
    ∧ protoViolation completed (.wrIbuf 16 0) = true
    ∧ step ({ completed with proto := true }.withEvent .reset)
        = .next (stepped ({ completed with proto := true }.withEvent .reset))
    ∧ ({ completed with proto := true }.withEvent .reset).proto = true
    ∧ (stepped ({ completed with proto := true }.withEvent .reset)).proto = false :=
  ⟨rfl, by decide, rfl, rfl, rfl⟩
theorem witness_ResultHiddenWhileBusy :
    StateInv (inFlight 1 twfu) ∧ (inFlight 1 twfu).busy = true ∧ 23 < (inFlight 1 twfu).cfg.maxOut :=
  ⟨stateInv_inFlight, rfl, by decide⟩
theorem witness_StepKeepsInvariant :
    StateInv (inFlight 1 twfu) ∧ step (inFlight 1 twfu) = .next (engineStep (inFlight 1 twfu)) :=
  ⟨stateInv_inFlight, rfl⟩
theorem witness_ResetMeetsInvariant : Params.legal { maxIn := 0, lenW := 1 } = true
    ∧ Params.legal { maxIn := 3221225469, lenW := 32 } = true := by decide
theorem witness_MaxOutHoldsEveryResult :
    ([0x4D] : List Byte).length ≤ (Params.mk 1 1).maxIn ∧ ([0x54, 0x51] : List Word).length ≤ (Params.mk 2 2).maxIn
    ∧ decodeCodes [0x54, 0x51] = .ok [0x4D] ∧ (Params.mk 2 2).maxOut ≤ 2 ^ 3 - 1 := by decide
theorem witness_LutsAreExactInverses : decLut 0x2F = some 63 := by decide
theorem witness_DecLutComparesAllBits :
    (0x141#32).extractLsb' 8 24 ≠ 0 ∧ 0x7F < (0x80#32).toNat ∧ (0x20#32).toNat ≤ 0x20 := by decide
theorem witness_EncodePaddingLaw :
    ([] : List Byte).length % 3 = 0 ∧ ([0x4D] : List Byte).length % 3 = 1
    ∧ ([0x4D, 0x61] : List Byte).length % 3 = 2 := by decide
theorem witness_EncodeOutputAlphabet : 0x54#8 ∈ encodeBytes [0x4D] := by decide
theorem witness_DecodeFollowsItsSteps :
    (strip [0x41]).length % 4 = 1 ∧ (strip [0x41, 0x40]).length % 4 ≠ 1
    ∧ (∃ c ∈ strip [0x41, 0x40], decLut c = none) ∧ (strip twfu).length % 4 ≠ 1
    ∧ ∀ c ∈ strip twfu, decLut c ≠ none := by
  refine ⟨by decide, by decide, ⟨0x40, by decide, by decide⟩, by decide, ?_⟩
  have h : strip twfu = twfu := by decide
  rw [h]
  simp only [twfu, List.forall_mem_cons]
  exact ⟨by decide, by decide, by decide, by decide, by simp⟩
theorem witness_DecodeLengthLaw : decodeCodes [0x54, 0x51] = .ok [0x4D] := by decide
theorem witness_UnusedBitsAreDiscarded :
    (16#6).extractLsb' 4 2 = (17#6).extractLsb' 4 2 ∧ (4#6).extractLsb' 2 4 = (5#6).extractLsb' 2 4 := by decide
/-- R143's own pairs for the decoder's clause, "TQ==" and "TR==", "TWE=" and "TWF=": the fronts "T" and
"TW", and the last characters' values. -/
theorem witness_UnusedBitsAreDiscarded_decode :
    strip [0x54, 0x51, 0x3D, 0x3D] = [0x54#32] ++ [0x51] ∧ strip [0x54, 0x52, 0x3D, 0x3D] = [0x54#32] ++ [0x52]
    ∧ strip [0x54, 0x57, 0x45, 0x3D] = [0x54#32, 0x57] ++ [0x45]
    ∧ strip [0x54, 0x57, 0x46, 0x3D] = [0x54#32, 0x57] ++ [0x46]
    ∧ decLut 0x54 = some 19 ∧ decLut 0x57 = some 22
    ∧ decLut 0x51 = some 16 ∧ decLut 0x52 = some 17 ∧ decLut 0x45 = some 4 ∧ decLut 0x46 = some 5
    ∧ [0x54#32].length % 4 = 1 ∧ [0x54#32, 0x57].length % 4 = 2 := by decide
theorem witness_InteriorPadIsInvalid :
    0x3D#32 ∈ strip [0x54, 0x3D, 0x51, 0x3D] ∧ (strip [0x54, 0x3D, 0x51, 0x3D]).length % 4 ≠ 1 := by decide

end Sys2Proof.Tests
end

namespace Sys2Proof.Machine

/-! ### The result of a command as a pure function (00_scope.md R13) -/

/-- The error code and the output with which the engine ends a command: a function of the parameters,
OP and the input alone (41_encoder.md R119, 42_decoder.md R147, 60_exceptions.md R204). -/
def commandResult (p : Params) (op : BitVec 2) (input : List Word) : BitVec 3 × List Byte :=
  if op = 2 ∨ op = 3 ∨ p.maxIn < input.length then (errIllegalCommand, [])
  else if op = 0 then (errNone, encodeBytes (input.map fun e => e.extractLsb' 0 8))
  else match decodeCodes input with
    | .ok out => (errNone, out)
    | .err kind => (kind.code, [])

theorem commandResult_illegal {s : State} (h : commandIllegal s = true) :
    commandResult s.cfg s.op (inputEntries s) = (errIllegalCommand, []) := by
  rw [commandIllegal_iff] at h
  rw [commandResult, inputEntries_length, if_pos h]

theorem commandResult_encode {s : State} (hl : commandIllegal s = false) (ho : s.op = 0) :
    commandResult s.cfg s.op (inputEntries s) = (errNone, encodeBytes (inputBytes s)) := by
  rw [← Bool.not_eq_true, commandIllegal_iff] at hl
  rw [commandResult, inputEntries_length, if_neg hl, if_pos ho, inputBytes]

theorem commandResult_decodeOk {s : State} {out : List Byte} (hl : commandIllegal s = false)
    (ho : s.op ≠ 0) (hd : decodeCodes (inputEntries s) = .ok out) :
    commandResult s.cfg s.op (inputEntries s) = (errNone, out) := by
  rw [← Bool.not_eq_true, commandIllegal_iff] at hl
  rw [commandResult, inputEntries_length, if_neg hl, if_neg ho, hd]

theorem commandResult_decodeErr {s : State} {kind : DecodeError} (hl : commandIllegal s = false)
    (ho : s.op ≠ 0) (hd : decodeCodes (inputEntries s) = .err kind) :
    commandResult s.cfg s.op (inputEntries s) = (kind.code, []) := by
  rw [← Bool.not_eq_true, commandIllegal_iff] at hl
  rw [commandResult, inputEntries_length, if_neg hl, if_neg ho, hd]

/-- The engine step completes with the pure function's result, whatever else the state holds. -/
theorem engineStep_eq_complete (s : State) :
    engineStep s = s.complete (commandResult s.cfg s.op (inputEntries s)).1
      (commandResult s.cfg s.op (inputEntries s)).2 := by
  obtain ⟨hl, h⟩ | ⟨hl, ho, h⟩ | ⟨hl, ho, ⟨out, hd, h⟩ | ⟨kind, hd, h⟩⟩ := engineStep_cases s
  · rw [h, commandResult_illegal hl]
  · rw [h, commandResult_encode hl ho]
  · rw [h, commandResult_decodeOk hl ho hd]
  · rw [h, commandResult_decodeErr hl ho hd]

/-! ### A START from an idle machine (43_host_interface.md R164) -/

theorem startCommand_idle {s : State} (op : BitVec 2) (h : s.busy = false) :
    startCommand op s = s.start op :=
  s.whileIdle_idle _ h

/-- Each of the four commands starts an idle machine with an OP of its own, the same from every state. -/
theorem exec_command_idle {i : Instr}
    (hi : i = .encode ∨ i = .decode ∨ i = .startRsv2 ∨ i = .startRsv3) :
    ∃ op, ∀ s : State, s.busy = false → exec i s = .next (s.start op) := by
  obtain rfl | rfl | rfl | rfl := hi
  · exact ⟨0, fun _ h => congrArg _ (startCommand_idle 0 h)⟩
  · exact ⟨1, fun _ h => congrArg _ (startCommand_idle 1 h)⟩
  · exact ⟨2, fun _ h => congrArg _ (startCommand_idle 2 h)⟩
  · exact ⟨3, fun _ h => congrArg _ (startCommand_idle 3 h)⟩

/-- A START leaves the written input as it is. -/
theorem start_inputIs {s : State} {codes : List Word} (op : BitVec 2) (h : s.inputIs codes) :
    (s.start op).inputIs codes := h

/-- A command started over a written input ends with the pure function's result for that input. -/
theorem engineStep_start {s : State} {codes : List Word} (op : BitVec 2) (h : s.inputIs codes) :
    engineStep (s.start op) = (s.start op).complete (commandResult s.cfg op codes).1
      (commandResult s.cfg op codes).2 := by
  rw [engineStep_eq_complete, inputEntries_of_inputIs (start_inputIs op h), State.start_cfg,
    State.start_op]

/-- Settles O30: from either machine the command starts with the same OP, and its result is the same
pure function of the parameters, OP and the input. -/
theorem earlierCommandsDoNotMatter : Obligations.EarlierCommandsDoNotMatter := by
  intro s u codes i hs hu hcfg hins hinu hi
  obtain ⟨op, hexec⟩ := exec_command_idle hi
  refine ⟨s.start op, u.start op, hexec s hs, hexec u hu, ?_⟩
  rw [engineStep_start op hins, engineStep_start op hinu, hcfg]
  simp

end Sys2Proof.Machine

namespace Sys2Proof.Machine

/-! ### The input snapshot while a command is in flight (20_memory.md R66) -/

/-- All that a transaction can do while BUSY = 1: a violation is dropped with PROTO set, and any other
transaction changes the answer and the count of draws at most (43_host_interface.md R165). -/
theorem Effect.cases_of_busy {i : Instr} {s t : State} (he : Effect i s t) (hb : s.busy = true) :
    (protoViolation s i = true ∧ t = s.setProto)
    ∨ (protoViolation s i = false
        ∧ ∃ replies draws, t = { s with replies := replies, draws := draws }) := by
  cases he with
  | answer replies draws hv => exact .inr ⟨hv, replies, draws, rfl⟩
  | violation hv => exact .inl ⟨hv, rfl⟩
  | setOp op hidle | setIlen d hidle | setIbuf k d hk hidle | start op hi hidle =>
    simp [hb] at hidle

/-- No transaction changes what the engine reads while BUSY = 1, nor BUSY itself. -/
theorem Effect.keeps_input_of_busy {i : Instr} {s t : State} (he : Effect i s t)
    (hb : s.busy = true) :
    t.busy = true ∧ t.cfg = s.cfg ∧ t.op = s.op ∧ t.ilen = s.ilen ∧ t.ibuf = s.ibuf := by
  obtain ⟨-, rfl⟩ | ⟨-, replies, draws, rfl⟩ := he.cases_of_busy hb
  · exact ⟨hb, rfl, rfl, rfl, rfl⟩
  · exact ⟨hb, rfl, rfl, rfl, rfl⟩

/-- Whether `codes` is the written input depends on ILEN and IBUF alone. -/
theorem State.inputIs.congr {s t : State} {codes : List Word} (h : s.inputIs codes)
    (hilen : t.ilen = s.ilen) (hibuf : t.ibuf = s.ibuf) : t.inputIs codes := by
  rwa [State.inputIs, hilen, hibuf]

/-- Over a written input the engine step ends with the pure function's result for that input, with no
free value in it. -/
theorem engineStep_of_inputIs {s : State} {codes : List Word} (h : s.inputIs codes) :
    engineStep s = s.complete (commandResult s.cfg s.op codes).1
      (commandResult s.cfg s.op codes).2 := by
  rw [engineStep_eq_complete, inputEntries_of_inputIs h]

/-- Settles O31: while BUSY = 1 a transaction keeps all that the engine reads, and over a written input
the result is a pure function of that. -/
theorem inputSnapshotWhileBusy : Obligations.InputSnapshotWhileBusy := by
  intro i s t hb hexec
  obtain ⟨hbusy, hcfg, hop, hilen, hibuf⟩ := (effect_of_exec hexec).keeps_input_of_busy hb
  refine ⟨hbusy, hcfg, hop, hilen, hibuf, fun codes hs => ?_⟩
  have ht : t.inputIs codes := hs.congr hilen hibuf
  rw [engineStep_of_inputIs ht, engineStep_of_inputIs hs, hcfg, hop]
  simp

end Sys2Proof.Machine

namespace Sys2Proof

/-! ### The rows of the decoder (30_encoding.md R71, R75) -/

/-- Settles O2: the decoder's own equation at each of the eight HDR values. -/
theorem headerSelectsTransaction : Obligations.HeaderSelectsTransaction :=
  fun _ _ => ⟨rfl, rfl, rfl, rfl, rfl, rfl, rfl, rfl⟩

theorem decode_cmd_of_not_start {d : Word} (hs : cmdStart d = false) :
    decode (.cmd d) = .setop (cmdOp d) := by
  simp [decode, decodeCmd, hs]

/-- A command word with START = 1 decodes as the word that holds OP and START alone. -/
theorem decode_cmd_of_start {d : Word} {op : BitVec 2} (hs : cmdStart d = true) (ho : cmdOp d = op) :
    decode (.cmd d) = decode (.cmd ((1#1 ++ op).setWidth 32)) := by
  have hstart : ∀ op : BitVec 2, cmdStart ((1#1 ++ op).setWidth 32) = true := by decide
  have hop : ∀ op : BitVec 2, cmdOp ((1#1 ++ op).setWidth 32) = op := by decide
  simp only [decode, decodeCmd, hs, ho, hstart, hop]

/-- DATA[2:0] of a command word is START over OP (30_encoding.md R74). -/
theorem and_seven_eq_fields (d : Word) :
    d &&& 0x7#32 = (BitVec.ofBool (cmdStart d) ++ cmdOp d).setWidth 32 := by
  ext i hi
  simp only [BitVec.getElem_and, BitVec.getElem_setWidth, BitVec.getLsbD_append]
  obtain rfl | rfl | rfl | hge : i = 0 ∨ i = 1 ∨ i = 2 ∨ 3 ≤ i := by omega
  · simp [cmdOp]
  · simp [cmdOp]
  · simp [cmdStart]
  · have hmask : (0x7#32)[i] = false := Nat.testBit_lt_two_pow <|
      calc 7 < 2 ^ 3 := by decide
        _ ≤ 2 ^ i := Nat.pow_le_pow_right two_pos hge
    have hstart : (BitVec.ofBool (cmdStart d)).getLsbD (i - 2) = false :=
      BitVec.getLsbD_of_ge _ _ (by omega)
    simp [hmask, hstart, show ¬ i < 2 by omega]

/-- A mask within bits [2:0] sees only those bits of a word. -/
theorem and_eq_and_seven_and {mask : Word} (d : Word) (hm : 0x7#32 &&& mask = mask) :
    d &&& mask = (d &&& 0x7#32) &&& mask := by
  rw [BitVec.and_assoc, hm]

theorem and_seven_eq_iff (d : Word) (op : BitVec 2) :
    d &&& 0x7#32 = (1#1 ++ op).setWidth 32 ↔ cmdStart d = true ∧ cmdOp d = op := by
  rw [and_seven_eq_fields]
  generalize cmdStart d = start, cmdOp d = o
  revert start o op
  decide

theorem and_four_eq_zero_iff (d : Word) : d &&& 0x4#32 = 0x0#32 ↔ cmdStart d = false := by
  rw [and_eq_and_seven_and d (by decide), and_seven_eq_fields]
  generalize cmdStart d = start, cmdOp d = op
  revert start op
  decide

/-- A command word whose DATA[2:0] is `1` over `op` decodes as that word does. -/
theorem decode_cmd_of_and_seven {d : Word} (op : BitVec 2)
    (h : d &&& 0x7#32 = (1#1 ++ op).setWidth 32) :
    decode (.cmd d) = decode (.cmd ((1#1 ++ op).setWidth 32)) :=
  have ⟨hs, ho⟩ := (and_seven_eq_iff d op).1 h
  decode_cmd_of_start hs ho

/-- The command map of 30_encoding.md R75, each row's mask and match. -/
def commandMap : List (Word × Word) :=
  [(0x4#32, 0x0#32), (0x7#32, 0x4#32), (0x7#32, 0x5#32), (0x7#32, 0x6#32), (0x7#32, 0x7#32)]

/-- Every mask of the map lies within DATA[2:0], so the eight values of START and OP decide. -/
theorem commandMap_filter_length (d : Word) :
    (commandMap.filter fun row => decide (d &&& row.1 = row.2)).length = 1 := by
  have hmask : ∀ row ∈ commandMap, 0x7#32 &&& row.1 = row.1 := by simp [commandMap]
  have hlow : ∀ row ∈ commandMap, decide (d &&& row.1 = row.2)
      = decide ((BitVec.ofBool (cmdStart d) ++ cmdOp d).setWidth 32 &&& row.1 = row.2) := by
    intro row hrow
    rw [and_eq_and_seven_and d (hmask row hrow), and_seven_eq_fields]
  rw [List.filter_congr hlow]
  generalize cmdStart d = start, cmdOp d = op
  revert start op
  decide

/-- Settles O3: the masks see START and OP alone, and these name the row. In the four START rows the
word of OP and START alone is the row's match, which the decoder evaluates. -/
theorem commandWordSelectsRow : Obligations.CommandWordSelectsRow := fun d =>
  ⟨fun h => decode_cmd_of_not_start ((and_four_eq_zero_iff d).1 h),
    decode_cmd_of_and_seven 0, decode_cmd_of_and_seven 1, decode_cmd_of_and_seven 2,
    decode_cmd_of_and_seven 3, commandMap_filter_length d⟩

end Sys2Proof

namespace Sys2Proof.Machine

/-! ### The alphabet (40_alphabet.md R100 to R105) -/

/-- Each of the 64 alphabet codes, widened to a character, looks up as its own index. -/
@[simp] theorem decLut_encLut : ∀ i : BitVec 6, decLut ((encLut i).setWidth 32) = some i := by decide

theorem encLut_of_decLut {c : Word} {v : BitVec 6} (h : decLut c = some v) :
    (encLut v).setWidth 32 = c := by
  apply BitVec.eq_of_toNat_eq
  rw [BitVec.toNat_setWidth_of_le (by decide), decLut_toNat h]

/-- Settles O43: one direction by the table, the other by the value a valid character names. -/
theorem lutsAreExactInverses : Obligations.LutsAreExactInverses :=
  ⟨decLut_encLut, fun _ _ => encLut_of_decLut⟩

/-- A character with a value is an alphabet code, so it lies in the range of these. -/
theorem decLut_eq_none_of_out_of_range {c : Word} (h : c.toNat ≤ 0x20 ∨ 0x80 ≤ c.toNat) :
    decLut c = none := by
  rw [Option.eq_none_iff_forall_ne_some]
  intro v hv
  have hc : c.toNat = (encLut v).toNat := decLut_toNat hv
  have hrange := encLut_range v
  omega

/-- A character with one of bits [31:8] set is at least 256. -/
theorem le_toNat_of_high_bits {c : Word} (h : c.extractLsb' 8 24 ≠ 0) : 256 ≤ c.toNat := by
  by_contra hlt
  apply h
  apply BitVec.eq_of_toNat_eq
  rw [BitVec.extractLsb'_toNat, Nat.shiftRight_eq_div_pow, Nat.div_eq_of_lt (by omega)]
  rfl

/-- Settles O44: the three classes lie outside the range of the alphabet codes; of the single codes,
newline is a control character and the others are looked up. -/
theorem decLutComparesAllBits : Obligations.DecLutComparesAllBits := by
  refine ⟨fun c h => ?_, fun c h => ?_, fun c h => ?_, ?_, rfl, rfl, rfl⟩
  · have := le_toNat_of_high_bits h
    exact decLut_eq_none_of_out_of_range (.inr (by omega))
  · exact decLut_eq_none_of_out_of_range (.inr h)
  · exact decLut_eq_none_of_out_of_range (.inl h)
  · exact decLut_eq_none_of_out_of_range (.inl (by decide))

/-- Settles O42: the 64 entries of the table, evaluated. -/
theorem encLutIsTheAlphabet : Obligations.EncLutIsTheAlphabet := by
  unfold Obligations.EncLutIsTheAlphabet
  decide

theorem decLut_pad : decLut padCode = none := rfl

/-- Settles O45: an index with code PAD would be the value of PAD, which has none. -/
theorem padIsOutsideTheAlphabet : Obligations.PadIsOutsideTheAlphabet := by
  refine ⟨decLut_pad, fun i hi => ?_⟩
  have hpad : decLut padCode = some i := by
    rw [← decLut_encLut i, hi]
    rfl
  rw [decLut_pad] at hpad
  cases hpad

end Sys2Proof.Machine

namespace Sys2Proof.Machine

/-! ### The encoder's groups (41_encoder.md R110 to R113) -/

/-- The accumulator holds the three bytes, the first on top (41_encoder.md R111). -/
theorem encAcc_eq_append (b0 b1 b2 : Byte) : encAcc b0 b1 b2 = b0 ++ b1 ++ b2 := by
  ext i hi
  rw [BitVec.getElem_append]
  obtain h | ⟨h, h'⟩ | h : i < 8 ∨ (8 ≤ i ∧ i < 16) ∨ 16 ≤ i := by omega
  · simp [encAcc, h, show i < 16 by omega]
  · rw [dif_neg (by omega), BitVec.getElem_append, dif_pos (by omega)]
    simp [encAcc, h', Nat.not_lt.2 h, BitVec.getLsbD_of_ge b2 i h,
      BitVec.getLsbD_eq_getElem (x := b1) (i := i - 8) (by omega)]
  · rw [dif_neg (by omega), BitVec.getElem_append, dif_neg (by omega)]
    simp [encAcc, Nat.not_lt.2 h, show ¬ i < 8 by omega, BitVec.getLsbD_of_ge b2 i (by omega),
      BitVec.getLsbD_of_ge b1 (i - 8) (by omega), Nat.sub_sub,
      BitVec.getLsbD_eq_getElem (x := b0) (i := i - 16) (by omega)]

/-- A group in terms of its bytes' own bits (41_encoder.md R112, R113). -/
theorem encGroup_eq_slices (b0 b1 b2 : Byte) (m : Nat) :
    encGroup b0 b1 b2 m = [encLut (b0.extractLsb' 2 6),
      encLut (b0.extractLsb' 0 2 ++ b1.extractLsb' 4 4),
      if 2 ≤ m then encLut (b1.extractLsb' 0 4 ++ b2.extractLsb' 6 2) else padByte,
      if m = 3 then encLut (b2.extractLsb' 0 6) else padByte] := by
  have h0 : (b0 ++ b1 ++ b2).extractLsb' 18 6 = b0.extractLsb' 2 6 := by
    rw [BitVec.extractLsb'_append_eq_of_le (by decide),
      BitVec.extractLsb'_append_eq_of_le (by decide)]
  have h1 : (b0 ++ b1 ++ b2).extractLsb' 12 6 = b0.extractLsb' 0 2 ++ b1.extractLsb' 4 4 := by
    rw [BitVec.extractLsb'_append_eq_of_le (by decide), BitVec.extractLsb'_append_eq_ite]
    simp
  have h2 : (b0 ++ b1 ++ b2).extractLsb' 6 6 = b1.extractLsb' 0 4 ++ b2.extractLsb' 6 2 := by
    rw [BitVec.extractLsb'_append_eq_ite, BitVec.extractLsb'_append_eq_of_add_le (by decide)]
    simp
  have h3 : (b0 ++ b1 ++ b2).extractLsb' 0 6 = b2.extractLsb' 0 6 :=
    BitVec.extractLsb'_append_eq_of_add_le (by decide)
  rw [← encAcc_eq_append] at h0 h1 h2 h3
  rw [encGroup, h0, h1, h2, h3]

/-- Settles O47: the slices of the accumulator, with the absent bytes 0. -/
theorem encGroupSlicesAndPads : Obligations.EncGroupSlicesAndPads := fun b0 b1 b2 =>
  ⟨encGroup_eq_slices b0 b1 b2 3, encGroup_eq_slices b0 b1 0 2, encGroup_eq_slices b0 0 0 1⟩

/-- A group of `m` bytes is alphabet codes, then a PAD for each absent byte. -/
theorem encGroup_eq_append_pads (b0 b1 b2 : Byte) {m : Nat} (h1 : 1 ≤ m) (h3 : m ≤ 3) :
    ∃ is : List (BitVec 6),
      encGroup b0 b1 b2 m = is.map encLut ++ List.replicate (3 - m) padByte := by
  obtain rfl | rfl | rfl : m = 1 ∨ m = 2 ∨ m = 3 := by omega
  · exact ⟨[_, _], rfl⟩
  · exact ⟨[_, _, _], rfl⟩
  · exact ⟨[_, _, _, _], rfl⟩

/-- Encode is alphabet codes, then a PAD for each byte that the last group lacks. -/
theorem encodeBytes_eq_append_pads (bytes : List Byte) :
    ∃ is : List (BitVec 6),
      encodeBytes bytes = is.map encLut ++ List.replicate ((3 - bytes.length % 3) % 3) padByte := by
  induction bytes using encodeBytes.induct with
  | case1 => exact ⟨[], rfl⟩
  | case2 b0 => exact encGroup_eq_append_pads b0 0 0 (m := 1) (by decide) (by decide)
  | case3 b0 b1 => exact encGroup_eq_append_pads b0 b1 0 (m := 2) (by decide) (by decide)
  | case4 b0 b1 b2 rest ih =>
    obtain ⟨is, h⟩ := encGroup_eq_append_pads b0 b1 b2 (m := 3) (by decide) (by decide)
    obtain ⟨js, hrest⟩ := ih
    have hlen : (b0 :: b1 :: b2 :: rest).length % 3 = rest.length % 3 := by simp; omega
    exact ⟨is ++ js, by simp [encodeBytes, h, hrest, hlen, -List.length_cons]⟩

theorem pad_notMem_map_encLut (is : List (BitVec 6)) : padByte ∉ is.map encLut := fun h =>
  have ⟨i, _, hi⟩ := List.mem_map.1 h
  padIsOutsideTheAlphabet.2 i hi

/-- Settles O49: the alphabet codes in front hold no PAD, and the remainder of the length counts the
PADs behind them. -/
theorem encodePaddingLaw : Obligations.EncodePaddingLaw := by
  intro bytes
  obtain ⟨is, h⟩ := encodeBytes_eq_append_pads bytes
  have hpad := pad_notMem_map_encLut is
  refine ⟨fun hn => ?_, fun hn => ⟨_, ?_, hpad⟩, fun hn => ⟨_, ?_, hpad⟩⟩ <;> rw [h, hn]
  · exact (List.append_nil _).symm ▸ hpad
  · rfl
  · rfl

/-- Settles O50: the alphabet codes and PAD are all below 0x80. -/
theorem encodeOutputAlphabet : Obligations.EncodeOutputAlphabet := by
  intro bytes c hc
  obtain ⟨is, h⟩ := encodeBytes_eq_append_pads bytes
  rw [h] at hc
  obtain hc | hc := List.mem_append.1 hc
  · obtain ⟨i, -, rfl⟩ := List.mem_map.1 hc
    exact ⟨.inr ⟨i, rfl⟩, (encLut_range i).2⟩
  · rw [List.eq_of_mem_replicate hc]
    exact ⟨.inl rfl, by decide⟩

/-! ### Encode as a whole (41_encoder.md R115, R116) -/

/-- Group `k` of an input: the bytes from `3k` up, an absent one as 0. -/
def encGroupAt (bytes : List Byte) (k : Nat) : List Byte :=
  encGroup (bytes.getD (3 * k) 0) (bytes.getD (3 * k + 1) 0) (bytes.getD (3 * k + 2) 0)
    (min 3 (bytes.length - 3 * k))

/-- A whole group in front moves each later group up by one. -/
theorem encGroupAt_succ (b0 b1 b2 : Byte) (rest : List Byte) (k : Nat) :
    encGroupAt (b0 :: b1 :: b2 :: rest) (k + 1) = encGroupAt rest k := by
  have hlen : rest.length + 1 + 1 + 1 - (3 * k + 3) = rest.length - 3 * k := by omega
  simp [encGroupAt, Nat.mul_add, hlen]

theorem encGroupAt_zero (b0 b1 b2 : Byte) (rest : List Byte) :
    encGroupAt (b0 :: b1 :: b2 :: rest) 0 = encGroup b0 b1 b2 3 := by
  simp [encGroupAt]

/-- Settles O46: by the encoder's own recursion, a whole group in front being group 0 and the rest's
groups following as groups 1 and up. -/
theorem encodeIsGroupByGroup : Obligations.EncodeIsGroupByGroup := by
  intro bytes
  change encodeBytes bytes = (List.range ((bytes.length + 2) / 3)).flatMap (encGroupAt bytes)
  induction bytes using encodeBytes.induct with
  | case1 => rfl
  | case2 b0 => simp [encodeBytes, encGroupAt]
  | case3 b0 b1 => simp [encodeBytes, encGroupAt]
  | case4 b0 b1 b2 rest ih =>
    have hlen : ((b0 :: b1 :: b2 :: rest).length + 2) / 3 = (rest.length + 2) / 3 + 1 := by
      simp; omega
    rw [encodeBytes, ih, hlen, List.range_succ_eq_map, List.flatMap_cons, List.flatMap_map,
      encGroupAt_zero]
    simp only [Nat.succ_eq_add_one, encGroupAt_succ]

/-- Settles O48: each of the groups has four characters. -/
theorem encodeLengthLaw : Obligations.EncodeLengthLaw := by
  intro bytes
  rw [encodeIsGroupByGroup bytes]
  simp [List.length_flatMap, Nat.mul_comm]

/-! ### The ENCODE command (41_encoder.md R119, R120) -/

/-- What no command changes, the end of an engine step does not change either. -/
theorem complete_sameOutsideCommand (s : State) (err : BitVec 3) (out : List Byte) :
    s.sameOutsideCommand (s.complete err out) :=
  ⟨rfl, rfl, rfl, rfl, rfl, rfl, rfl⟩

/-- A START changes only what a command may change. -/
theorem sameOutsideCommand_start {s t : State} {op : BitVec 2}
    (h : (s.start op).sameOutsideCommand t) : s.sameOutsideCommand t := h

/-- What the engine reads is the written input, with some value for an entry never written. -/
theorem mayRead_inputEntries (s : State) : s.mayRead (inputEntries s) := by
  refine ⟨inputEntries_length s, fun i v hi hv => ?_⟩
  have hi' : i < s.ilen.toNat := inputEntries_length s ▸ hi
  simp [inputEntries, inputEntry, hv, hi']

theorem inputBytes_eq_map_setWidth (s : State) :
    inputBytes s = (inputEntries s).map fun c => c.setWidth 8 := by
  simp only [inputBytes, BitVec.setWidth_eq_extractLsb' (show 8 ≤ 32 by decide)]

/-- The result of an input of at most MAX_IN bytes fits OLEN (00_scope.md R5). -/
theorem encodeBytes_length_lt {p : Params} {bytes : List Byte} (hp : p.legal = true)
    (h : bytes.length ≤ p.maxIn) : (encodeBytes bytes).length < 2 ^ 32 :=
  calc (encodeBytes bytes).length = 4 * ((bytes.length + 2) / 3) := encodeLengthLaw bytes
    _ ≤ p.maxOut := by rw [Params.maxOut]; gcongr
    _ < 2 ^ 32 := maxOut_lt hp

/-- ENCODE of an input in range shows Encode of the input's low bytes. -/
theorem engineStep_encode_resultIs {s : State} (ho : s.op = 0) (hp : s.cfg.legal = true)
    (hn : s.ilen.toNat ≤ s.cfg.maxIn) : (engineStep s).resultIs (encodeBytes (inputBytes s)) := by
  have hlegal : commandIllegal s = false := by
    rw [← Bool.not_eq_true, commandIllegal_iff, ho]
    simp [hn]
  rw [engineStep_eq_complete, commandResult_encode hlegal ho]
  exact complete_resultIs s _ (encodeBytes_length_lt hp (by simpa using hn))

/-- A command whose ILEN is above MAX_IN is ILLEGAL_COMMAND (60_exceptions.md R204). -/
theorem engineStep_failedWith_of_maxIn_lt {s : State} (hn : s.cfg.maxIn < s.ilen.toNat) :
    (engineStep s).failedWith errIllegalCommand := by
  rw [engineStep_eq_complete, commandResult_illegal ((commandIllegal_iff s).2 (.inr (.inr hn)))]
  exact complete_failedWith s errIllegalCommand

/-- Settles O26: an idle machine starts with OP 0, and the engine step completes with Encode of what
it reads or with ILLEGAL_COMMAND. -/
theorem encodeCommandWritesResult : Obligations.EncodeCommandWritesResult := by
  intro s hb hp
  have hend := engineStep_eq_complete (s.start 0)
  refine ⟨s.start 0, congrArg _ (startCommand_idle 0 hb), ?_, ?_, fun hn => ?_, fun hn => ?_⟩
  · rw [hend, State.complete_op, State.start_op]
  · rw [hend]
    exact sameOutsideCommand_start (complete_sameOutsideCommand (s.start 0) _ _)
  · refine ⟨inputEntries (s.start 0), mayRead_inputEntries (s.start 0), ?_⟩
    rw [← inputBytes_eq_map_setWidth]
    exact engineStep_encode_resultIs (State.start_op s 0) hp hn
  · exact engineStep_failedWith_of_maxIn_lt (s := s.start 0) hn

/-- The result of ENCODE depends on the low bytes of its input alone. -/
theorem commandResult_encode_congr (p : Params) {input input' : List Word}
    (h : input.map (fun e => e.extractLsb' 0 8) = input'.map fun e => e.extractLsb' 0 8) :
    commandResult p 0 input = commandResult p 0 input' := by
  have hlen : input.length = input'.length := by simpa using congrArg List.length h
  simp only [commandResult, hlen, h, if_true]

/-- Settles O29: over a written input the engine step ends with the pure function's result. -/
theorem encodeIgnoresHighBits : Obligations.EncodeIgnoresHighBits := by
  intro s u codes codes' hs hu hcfg hins hinu hlow
  rw [engineStep_of_inputIs hins, engineStep_of_inputIs hinu, hs, hu, hcfg,
    commandResult_encode_congr u.cfg hlow]
  simp

end Sys2Proof.Machine

namespace Sys2Proof.Machine

/-! ### The decoder's groups (42_decoder.md R136, R137) -/

/-- A value shifted into the accumulator loses no bit, as long as it fits. -/
theorem toNat_setWidth_shiftLeft (v : BitVec 6) {k : Nat} (hk : k ≤ 18) :
    (v.setWidth 24 <<< k).toNat = v.toNat <<< k := by
  have hlt : v.toNat <<< k < 2 ^ 24 :=
    calc v.toNat <<< k < 2 ^ (6 + k) := Nat.shiftLeft_lt v.isLt
      _ ≤ 2 ^ 24 := Nat.pow_le_pow_right two_pos (by omega)
  rw [BitVec.toNat_shiftLeft, BitVec.toNat_setWidth_of_le (by decide), Nat.mod_eq_of_lt hlt]

/-- The accumulator holds the four values, the first on top (42_decoder.md R136). -/
theorem decAcc_eq_append (v0 v1 v2 v3 : BitVec 6) : decAcc v0 v1 v2 v3 = v0 ++ v1 ++ v2 ++ v3 := by
  apply BitVec.eq_of_toNat_eq
  simp only [decAcc, BitVec.toNat_or, BitVec.toNat_append, Nat.shiftLeft_or_distrib,
    ← Nat.shiftLeft_add]
  rw [toNat_setWidth_shiftLeft v0 (by decide), toNat_setWidth_shiftLeft v1 (by decide),
    toNat_setWidth_shiftLeft v2 (by decide), BitVec.toNat_setWidth_of_le (by decide)]

/-- A group in terms of its values' own bits. -/
theorem decGroup_eq_slices (v0 v1 v2 v3 : BitVec 6) (p : Nat) :
    decGroup v0 v1 v2 v3 p = [v0 ++ v1.extractLsb' 4 2]
      ++ (if 3 ≤ p then [v1.extractLsb' 0 4 ++ v2.extractLsb' 2 4] else [])
      ++ (if p = 4 then [v2.extractLsb' 0 2 ++ v3] else []) := by
  have h0 : (v0 ++ v1 ++ v2 ++ v3).extractLsb' 16 8 = v0 ++ v1.extractLsb' 4 2 := by
    rw [BitVec.extractLsb'_append_eq_of_le (by decide),
      BitVec.extractLsb'_append_eq_of_le (by decide), BitVec.extractLsb'_append_eq_ite]
    simp
  have h1 : (v0 ++ v1 ++ v2 ++ v3).extractLsb' 8 8 = v1.extractLsb' 0 4 ++ v2.extractLsb' 2 4 := by
    rw [BitVec.extractLsb'_append_eq_of_le (by decide), BitVec.extractLsb'_append_eq_ite]
    simp [BitVec.extractLsb'_append_eq_of_add_le (show 0 + 4 ≤ 6 by decide)]
  have h2 : (v0 ++ v1 ++ v2 ++ v3).extractLsb' 0 8 = v2.extractLsb' 0 2 ++ v3 := by
    rw [BitVec.extractLsb'_append_eq_ite]
    simp [BitVec.extractLsb'_append_eq_of_add_le (show 0 + 2 ≤ 6 by decide)]
  rw [← decAcc_eq_append] at h0 h1 h2
  rw [decGroup, h0, h1, h2]

/-- Settles O53: the slices of the accumulator, with the missing values 0. -/
theorem decGroupBytes : Obligations.DecGroupBytes := fun v0 v1 v2 v3 =>
  ⟨decGroup_eq_slices v0 v1 v2 v3 4, decGroup_eq_slices v0 v1 v2 0 3, decGroup_eq_slices v0 v1 0 0 2⟩

/-- A group of two values depends on bits [5:4] alone of the second (42_decoder.md R143). -/
theorem decGroup_two_congr (v0 : BitVec 6) {v1 v1' : BitVec 6} (v2 v2' v3 v3' : BitVec 6)
    (h : v1.extractLsb' 4 2 = v1'.extractLsb' 4 2) :
    decGroup v0 v1 v2 v3 2 = decGroup v0 v1' v2' v3' 2 := by
  rw [decGroup_eq_slices, decGroup_eq_slices, h]
  rfl

/-- A group of three values depends on bits [5:2] alone of the third (42_decoder.md R143). -/
theorem decGroup_three_congr (v0 v1 : BitVec 6) {v2 v2' : BitVec 6} (v3 v3' : BitVec 6)
    (h : v2.extractLsb' 2 4 = v2'.extractLsb' 2 4) :
    decGroup v0 v1 v2 v3 3 = decGroup v0 v1 v2' v3' 3 := by
  rw [decGroup_eq_slices, decGroup_eq_slices, h]
  rfl

/-! ### Unpacking a value sequence (42_decoder.md R133, R135, R140) -/

/-- A whole group in front does not change the size of the last, partial group. -/
theorem length_cons_group_mod (v0 v1 v2 v3 : BitVec 6) (rest : List (BitVec 6)) :
    (v0 :: v1 :: v2 :: v3 :: rest).length % 4 = rest.length % 4 :=
  Nat.add_mod_right rest.length 4

/-- Each whole group gives three bytes, and a last group of two or three values one or two. -/
theorem unpack_length {vs : List (BitVec 6)} (h : vs.length % 4 ≠ 1) :
    (unpack vs).length = 3 * (vs.length / 4)
      + (if vs.length % 4 = 2 then 1 else if vs.length % 4 = 3 then 2 else 0) := by
  induction vs using unpack.induct with
  | case1 => rfl
  | case2 v => exact absurd rfl h
  | case3 v0 v1 => simp [unpack, decGroup]
  | case4 v0 v1 v2 => simp [unpack, decGroup]
  | case5 v0 v1 v2 v3 rest ih =>
    have hdiv : (v0 :: v1 :: v2 :: v3 :: rest).length / 4 = rest.length / 4 + 1 :=
      Nat.add_div_right rest.length four_pos
    have hgroup : (decGroup v0 v1 v2 v3 4).length = 3 := rfl
    rw [length_cons_group_mod] at h ⊢
    rw [unpack, List.length_append, hgroup, ih h, hdiv]
    omega

/-- Group `k` of a value sequence: the values from `4k` up, a missing one as 0. -/
def decGroupAt (vs : List (BitVec 6)) (k : Nat) : List Byte :=
  decGroup (vs[4 * k]?.getD 0) (vs[4 * k + 1]?.getD 0) (vs[4 * k + 2]?.getD 0)
    (vs[4 * k + 3]?.getD 0) (min 4 (vs.length - 4 * k))

/-- A whole group in front moves each later group up by one. -/
theorem decGroupAt_succ (v0 v1 v2 v3 : BitVec 6) (rest : List (BitVec 6)) (k : Nat) :
    decGroupAt (v0 :: v1 :: v2 :: v3 :: rest) (k + 1) = decGroupAt rest k := by
  have hlen : rest.length + 1 + 1 + 1 + 1 - (4 * k + 4) = rest.length - 4 * k := by omega
  simp [decGroupAt, Nat.mul_add, hlen]

theorem decGroupAt_zero (v0 v1 v2 v3 : BitVec 6) (rest : List (BitVec 6)) :
    decGroupAt (v0 :: v1 :: v2 :: v3 :: rest) 0 = decGroup v0 v1 v2 v3 4 := by
  simp [decGroupAt]

/-- Unpacking is group by group, `ceil(n / 4)` groups in order. -/
theorem unpack_eq_flatMap {vs : List (BitVec 6)} (h : vs.length % 4 ≠ 1) :
    unpack vs = (List.range ((vs.length + 3) / 4)).flatMap (decGroupAt vs) := by
  induction vs using unpack.induct with
  | case1 => rfl
  | case2 v => exact absurd rfl h
  | case3 v0 v1 => simp [unpack, decGroupAt]
  | case4 v0 v1 v2 => simp [unpack, decGroupAt]
  | case5 v0 v1 v2 v3 rest ih =>
    rw [length_cons_group_mod] at h
    have hlen : ((v0 :: v1 :: v2 :: v3 :: rest).length + 3) / 4 = (rest.length + 3) / 4 + 1 := by
      simp; omega
    rw [unpack, ih h, hlen, List.range_succ_eq_map, List.flatMap_cons, List.flatMap_map,
      decGroupAt_zero]
    simp only [Nat.succ_eq_add_one, decGroupAt_succ]

/-- The unused low bits of a last value that ends a partial group do not reach the bytes. -/
theorem unpack_append_last_congr (vs : List (BitVec 6)) {v v' : BitVec 6}
    (h : (vs.length % 4 = 1 ∧ v.extractLsb' 4 2 = v'.extractLsb' 4 2)
      ∨ (vs.length % 4 = 2 ∧ v.extractLsb' 2 4 = v'.extractLsb' 2 4)) :
    unpack (vs ++ [v]) = unpack (vs ++ [v']) := by
  induction vs using unpack.induct with
  | case1 => simp at h
  | case2 v0 =>
    have h4 : v.extractLsb' 4 2 = v'.extractLsb' 4 2 := by simpa using h
    exact decGroup_two_congr v0 0 0 0 0 h4
  | case3 v0 v1 =>
    have h2 : v.extractLsb' 2 4 = v'.extractLsb' 2 4 := by simpa using h
    exact decGroup_three_congr v0 v1 0 0 h2
  | case4 v0 v1 v2 => simp at h
  | case5 v0 v1 v2 v3 rest ih =>
    rw [length_cons_group_mod] at h
    simp only [List.cons_append, unpack, ih h]

/-! ### Strip and the characters (42_decoder.md R131, R134) -/

/-- Every input is its stripped form, then PADs. -/
theorem exists_eq_strip_append_pads (codes : List Word) :
    ∃ k, codes = strip codes ++ List.replicate k padCode := by
  induction codes with
  | nil => exact ⟨0, rfl⟩
  | cons c cs ih =>
    obtain ⟨k, hk⟩ := ih
    rw [strip]
    split
    · next hc =>
      obtain ⟨rfl, hcs⟩ := hc
      rw [hcs] at hk
      exact ⟨k + 1, congrArg (padCode :: ·) hk⟩
    · exact ⟨k, congrArg (c :: ·) hk⟩

/-- What is left does not end in PAD. -/
theorem strip_getLast? (codes : List Word) : (strip codes).getLast? ≠ some padCode := by
  induction codes with
  | nil => simp [strip]
  | cons c cs ih =>
    rw [strip]
    split
    · simp
    · next hc =>
      cases hs : strip cs with
      | nil => simpa [hs] using hc
      | cons d ds =>
        rw [List.getLast?_cons_cons, ← hs]
        exact ih

/-- Settles O51: what follows the stripped form is PADs, and PAD does not end it. -/
theorem stripRemovesTrailingPads : Obligations.StripRemovesTrailingPads := fun codes =>
  ⟨exists_eq_strip_append_pads codes, strip_getLast? codes⟩

theorem strip_length_le (codes : List Word) : (strip codes).length ≤ codes.length := by
  obtain ⟨k, hk⟩ := exists_eq_strip_append_pads codes
  have hlen := congrArg List.length hk
  rw [List.length_append] at hlen
  omega

/-- Nothing is stripped from valid characters, as PAD is none (40_alphabet.md R105). -/
theorem strip_of_lutAll {codes : List Word} {vs : List (BitVec 6)} (h : lutAll codes = some vs) :
    strip codes = codes := by
  refine strip_of_getLast? fun hlast => ?_
  have hnone : lutAll codes = none :=
    lutAll_eq_none_iff.2 ⟨padCode, List.mem_of_getLast? hlast, decLut_pad⟩
  simp [h] at hnone

/-- Valid characters have values. -/
theorem exists_lutAll_of_valid {codes : List Word} (h : ∀ c ∈ codes, decLut c ≠ none) :
    ∃ vs, lutAll codes = some vs := by
  refine Option.ne_none_iff_exists'.1 fun hnone => ?_
  obtain ⟨c, hc, hinvalid⟩ := lutAll_eq_none_iff.1 hnone
  exact h c hc hinvalid

/-- The values of alphabet codes are their indices. -/
theorem lutAll_map_encLut (vs : List (BitVec 6)) :
    lutAll (vs.map fun v => (encLut v).setWidth 32) = some vs := by
  induction vs with
  | nil => rfl
  | cons v vs ih => simp only [List.map_cons, lutAll, decLut_encLut, ih]

/-! ### Decode as a whole (42_decoder.md R138 to R145) -/

theorem decodeCodes_invalidLength {codes : List Word} (h : (strip codes).length % 4 = 1) :
    decodeCodes codes = .err .invalidLength := by
  rw [decodeCodes, if_pos h]

theorem decodeCodes_invalidCharacter {codes : List Word} (h : (strip codes).length % 4 ≠ 1)
    (hc : ∃ c ∈ strip codes, decLut c = none) : decodeCodes codes = .err .invalidCharacter := by
  rw [decodeCodes, if_neg h, lutAll_eq_none_iff.2 hc]

theorem decodeCodes_ok {codes : List Word} {vs : List (BitVec 6)}
    (h : (strip codes).length % 4 ≠ 1) (hv : lutAll (strip codes) = some vs) :
    decodeCodes codes = .ok (unpack vs) := by
  rw [decodeCodes, if_neg h, hv]

/-- Settles O52: the three ways through the decoder, and unpacking group by group, the values being
those of the characters. -/
theorem decodeFollowsItsSteps : Obligations.DecodeFollowsItsSteps := by
  intro codes
  refine ⟨decodeCodes_invalidLength, decodeCodes_invalidCharacter, fun hn hvalid => ?_⟩
  obtain ⟨vs, hv⟩ := exists_lutAll_of_valid hvalid
  obtain ⟨hlen, hval⟩ := lutAll_eq_some hv
  simp only [← hval, ← hlen]
  rw [← hlen] at hn
  rw [decodeCodes_ok (hlen ▸ hn) hv, unpack_eq_flatMap hn]
  rfl

/-- Settles O54: the bytes of the values, one value for each stripped character. -/
theorem decodeLengthLaw : Obligations.DecodeLengthLaw := by
  intro codes out h
  obtain ⟨hn, vs, hv, rfl⟩ := decodeCodes_eq_ok h
  rw [← (lutAll_eq_some hv).1] at hn ⊢
  exact unpack_length hn

/-- Settles O55: Decode reads its input through Strip alone. -/
theorem paddingCountIsNotChecked : Obligations.PaddingCountIsNotChecked := by
  intro codes k
  have hstrip : strip (codes ++ List.replicate k 0x3D#32) = strip codes := strip_append_pads codes k
  simp only [decodeCodes, hstrip]

/-- Settles O57: PAD has no value. -/
theorem interiorPadIsInvalid : Obligations.InteriorPadIsInvalid := fun _ hpad hn =>
  decodeCodes_invalidCharacter hn ⟨padCode, hpad, decLut_pad⟩

/-- An input whose stripped form is valid characters decodes to the bytes of their values. -/
theorem decodeCodes_of_strip_append_last {codes front : List Word} {c : Word}
    {vs : List (BitVec 6)} {v : BitVec 6} (hs : strip codes = front ++ [c])
    (hvs : lutAll front = some vs) (hv : decLut c = some v) (hn : front.length % 4 ≠ 0) :
    decodeCodes codes = .ok (unpack (vs ++ [v])) := by
  apply decodeCodes_ok
  · rw [hs, List.length_append, List.length_singleton]
    omega
  · simp [hs, lutAll_append, hvs, lutAll, hv]

/-- Settles O56: a group discards the unused bits, and so does the group that ends a whole input. -/
theorem unusedBitsAreDiscarded : Obligations.UnusedBitsAreDiscarded := by
  refine ⟨fun v0 _ _ => decGroup_two_congr v0 0 0 0 0,
    fun v0 v1 _ _ => decGroup_three_congr v0 v1 0 0, ?_⟩
  intro codes codes' front c c' v v' hs hs' hfront hv hv' hbits
  obtain ⟨vs, hvs⟩ := exists_lutAll_of_valid hfront
  have hn : front.length % 4 ≠ 0 := by omega
  refine ⟨_, decodeCodes_of_strip_append_last hs hvs hv hn, ?_⟩
  rw [← (lutAll_eq_some hvs).1] at hbits
  rw [unpack_append_last_congr vs hbits]
  exact decodeCodes_of_strip_append_last hs' hvs hv' hn

/-! ### The round trip (42_decoder.md R146) -/

/-- The four slices of an accumulator, put together again, are the accumulator. -/
theorem decAcc_slices (acc : BitVec 24) :
    decAcc (acc.extractLsb' 18 6) (acc.extractLsb' 12 6) (acc.extractLsb' 6 6)
      (acc.extractLsb' 0 6) = acc := by
  rw [decAcc_eq_append,
    BitVec.extractLsb'_append_extractLsb'_eq_extractLsb' (show 18 = 12 + 6 from rfl),
    BitVec.extractLsb'_append_extractLsb'_eq_extractLsb' (show 12 = 6 + 6 from rfl),
    BitVec.extractLsb'_append_extractLsb'_eq_extractLsb' (show 6 = 0 + 6 from rfl)]
  exact BitVec.extractLsb'_eq_self

/-- Slice `j` of an encode group's accumulator, the first on top: the value that character `j` of the
group encodes (41_encoder.md R112). -/
def encValue (b0 b1 b2 : Byte) (j : Nat) : BitVec 6 := (encAcc b0 b1 b2).extractLsb' (18 - 6 * j) 6

/-- The values of an encode group decode to its bytes. -/
theorem decGroup_encValue (b0 b1 b2 : Byte) (p : Nat) :
    decGroup (encValue b0 b1 b2 0) (encValue b0 b1 b2 1) (encValue b0 b1 b2 2)
      (encValue b0 b1 b2 3) p
    = [b0] ++ (if 3 ≤ p then [b1] else []) ++ (if p = 4 then [b2] else []) := by
  have hacc : decAcc (encValue b0 b1 b2 0) (encValue b0 b1 b2 1) (encValue b0 b1 b2 2)
      (encValue b0 b1 b2 3) = b0 ++ b1 ++ b2 :=
    (decAcc_slices (encAcc b0 b1 b2)).trans (encAcc_eq_append b0 b1 b2)
  have h0 : (b0 ++ b1 ++ b2).extractLsb' 16 8 = b0 := by
    rw [BitVec.extractLsb'_append_eq_of_le (by decide)]
    exact BitVec.extractLsb'_append_eq_left
  have h1 : (b0 ++ b1 ++ b2).extractLsb' 8 8 = b1 := by
    rw [BitVec.extractLsb'_append_eq_of_le (by decide)]
    exact BitVec.extractLsb'_append_eq_right
  have h2 : (b0 ++ b1 ++ b2).extractLsb' 0 8 = b2 := BitVec.extractLsb'_append_eq_right
  rw [decGroup, hacc, h0, h1, h2]

/-- Encode is the alphabet codes of a value sequence, then PADs, and the sequence unpacks to the
encoded bytes. -/
theorem encodeBytes_eq_values_append_pads (bytes : List Byte) :
    ∃ (vs : List (BitVec 6)) (k : Nat),
      encodeBytes bytes = vs.map encLut ++ List.replicate k padByte
        ∧ vs.length % 4 ≠ 1 ∧ unpack vs = bytes := by
  induction bytes using encodeBytes.induct with
  | case1 => exact ⟨[], 0, rfl, by decide, rfl⟩
  | case2 b0 =>
    refine ⟨[encValue b0 0 0 0, encValue b0 0 0 1], 2, rfl, by simp, ?_⟩
    exact (decGroup_two_congr _ _ _ _ _ rfl).trans (decGroup_encValue b0 0 0 2)
  | case3 b0 b1 =>
    refine ⟨[encValue b0 b1 0 0, encValue b0 b1 0 1, encValue b0 b1 0 2], 1, rfl, by simp, ?_⟩
    exact (decGroup_three_congr _ _ _ _ rfl).trans (decGroup_encValue b0 b1 0 3)
  | case4 b0 b1 b2 rest ih =>
    obtain ⟨vs, k, henc, hlen, hunpack⟩ := ih
    refine ⟨encValue b0 b1 b2 0 :: encValue b0 b1 b2 1 :: encValue b0 b1 b2 2
      :: encValue b0 b1 b2 3 :: vs, k, ?_, ?_, ?_⟩
    · rw [encodeBytes, henc]
      rfl
    · rwa [length_cons_group_mod]
    · rw [unpack, hunpack, decGroup_encValue]
      rfl

/-- Settles O58: Strip takes off the PADs, the lookups give the values back, and these unpack to the
bytes. -/
theorem decodeOfEncodeIsIdentity : Obligations.DecodeOfEncodeIsIdentity := by
  intro bytes
  obtain ⟨vs, k, henc, hlen, hunpack⟩ := encodeBytes_eq_values_append_pads bytes
  have hlut := lutAll_map_encLut vs
  have hcodes : (encodeBytes bytes).map (fun c => c.setWidth 32)
      = vs.map (fun v => (encLut v).setWidth 32) ++ List.replicate k padCode := by
    simp [henc, padByte, padCode]
  have hstrip : strip ((encodeBytes bytes).map fun c => c.setWidth 32)
      = vs.map fun v => (encLut v).setWidth 32 := by
    rw [hcodes, strip_append_pads, strip_of_lutAll hlut]
  rw [decodeCodes_ok (by simpa [hstrip] using hlen) (hstrip ▸ hlut), hunpack]

/-! ### The DECODE command (42_decoder.md R147) -/

/-- A result of Decode is no longer than its input. -/
theorem decodeCodes_ok_length_le {codes : List Word} {out : List Byte}
    (h : decodeCodes codes = .ok out) : out.length ≤ codes.length := by
  have hlaw := decodeLengthLaw codes out h
  have hstrip := strip_length_le codes
  split at hlaw
  · omega
  · split at hlaw <;> omega

/-- DECODE of an input in range is no illegal command. -/
theorem commandIllegal_decode {s : State} (ho : s.op = 1) (hn : s.ilen.toNat ≤ s.cfg.maxIn) :
    commandIllegal s = false := by
  rw [← Bool.not_eq_true, commandIllegal_iff, ho]
  simp [hn]

/-- DECODE of an input in range shows the result of Decode, which fits OLEN as the input fits ILEN. -/
theorem engineStep_decode_resultIs {s : State} {out : List Byte} (ho : s.op = 1)
    (hn : s.ilen.toNat ≤ s.cfg.maxIn) (hd : decodeCodes (inputEntries s) = .ok out) :
    (engineStep s).resultIs out := by
  have hlen : out.length ≤ s.ilen.toNat := by simpa using decodeCodes_ok_length_le hd
  rw [engineStep_eq_complete,
    commandResult_decodeOk (commandIllegal_decode ho hn) (by simp [ho]) hd]
  exact complete_resultIs s out (hlen.trans_lt s.ilen.isLt)

/-- DECODE of an input in range fails with the code of Decode's error. -/
theorem engineStep_decode_failedWith {s : State} {kind : DecodeError} (ho : s.op = 1)
    (hn : s.ilen.toNat ≤ s.cfg.maxIn) (hd : decodeCodes (inputEntries s) = .err kind) :
    (engineStep s).failedWith kind.code := by
  rw [engineStep_eq_complete,
    commandResult_decodeErr (commandIllegal_decode ho hn) (by simp [ho]) hd]
  exact complete_failedWith s kind.code

/-- From a START to the end of its engine step OP is the START's, and nothing outside the command
changes. -/
theorem engineStep_start_frame (s : State) (op : BitVec 2) :
    (engineStep (s.start op)).op = op ∧ s.sameOutsideCommand (engineStep (s.start op)) := by
  rw [engineStep_eq_complete, State.complete_op, State.start_op]
  exact ⟨rfl, sameOutsideCommand_start (complete_sameOutsideCommand (s.start op) _ _)⟩

/-- Settles O27: an idle machine starts with OP 1, and the engine step completes with Decode of what
it reads, with the code of its error, or with ILLEGAL_COMMAND. -/
theorem decodeCommandWritesResult : Obligations.DecodeCommandWritesResult := by
  intro s hb _
  obtain ⟨hop, hframe⟩ := engineStep_start_frame s 1
  refine ⟨s.start 1, congrArg _ (startCommand_idle 1 hb), hop, hframe, fun hn => ?_, fun hn => ?_⟩
  · have ho : (s.start 1).op = 1 := State.start_op s 1
    exact ⟨inputEntries (s.start 1), mayRead_inputEntries (s.start 1),
      fun _ => engineStep_decode_resultIs ho hn, engineStep_decode_failedWith ho hn,
      engineStep_decode_failedWith ho hn⟩
  · exact engineStep_failedWith_of_maxIn_lt (s := s.start 1) hn

end Sys2Proof.Machine

namespace Sys2Proof.Machine

/-! ### The host's transactions, one at a time (43_host_interface.md R161 to R172) -/

/-- A host protocol violation is dropped with PROTO set, BUSY or not (60_exceptions.md R205). -/
theorem exec_of_violation {i : Instr} {s : State} (hv : protoViolation s i = true) :
    exec i s = .next s.setProto := by
  obtain ⟨t, hexec, he⟩ := exec_effect i s
  rw [hexec]
  cases he with
  | violation => rfl
  | answer _ _ h | setOp _ _ h | setIlen _ _ h | setIbuf _ _ _ _ h | start _ _ _ h =>
    exact absurd hv (by simp [h])

theorem exec_rdReg (index : Nat) (s : State) :
    exec (.rdReg index) s = .next { s with replies := readReg s index :: s.replies } := rfl

/-- A write to any register but CTRL and ILEN is ignored, BUSY or not (R167). -/
theorem exec_wrReg_of_ne {index : Nat} (d : Word) (s : State) (h0 : index ≠ 0) (h2 : index ≠ 2) :
    exec (.wrReg index d) s = .next s := by
  match index with
  | 0 => exact absurd rfl h0
  | 1 => rfl
  | 2 => exact absurd rfl h2
  | _ + 3 => rfl

/-- A write to CTRL without START runs as SETOP (30_encoding.md R75). -/
theorem exec_wrReg_zero_of_not_start {d : Word} (s : State) (h : cmdStart d = false) :
    exec (.wrReg 0 d) s = exec (.setop (cmdOp d)) s := by
  simp [exec, execWrReg, execCmdWord, h]

theorem exec_setop_idle {s : State} (op : BitVec 2) (hb : s.busy = false) :
    exec (.setop op) s = .next { s with op := op } :=
  congrArg _ (s.whileIdle_idle _ hb)

theorem exec_wrReg_ilen_idle {s : State} (d : Word) (hb : s.busy = false) :
    exec (.wrReg 2 d) s = .next { s with ilen := ilenOfData s.cfg d } :=
  congrArg _ (s.whileIdle_idle _ hb)

theorem exec_wrIbuf_idle {s : State} {index : Nat} (d : Word) (hb : s.busy = false)
    (hk : index < s.cfg.maxIn) :
    exec (.wrIbuf index d) s = .next { s with ibuf := Memory.write s.ibuf index d } := by
  simp [exec, execWrIbuf, s.whileIdle_idle _ hb, hk]

/-! ### What the registers read as (10_state.md R22 to R25) -/

/-- STATUS, its fields at the bits of 10_state.md R23. -/
theorem statusWord_eq_shifts (s : State) :
    statusWord s = ((BitVec.ofBool s.proto).setWidth 32 <<< 5) ||| (s.err.setWidth 32 <<< 2)
      ||| ((BitVec.ofBool s.done).setWidth 32 <<< 1) ||| (BitVec.ofBool s.busy).setWidth 32 := by
  rw [statusWord]
  generalize s.proto = proto, s.err = err, s.done = done, s.busy = busy
  revert proto err done busy
  decide

/-- After ILLEGAL_COMMAND the fields below PROTO are fixed. -/
theorem statusWord_of_failedWith_illegal {s : State} (h : s.failedWith errIllegalCommand) :
    statusWord s = if s.proto then 0x2E#32 else 0xE#32 := by
  obtain ⟨hbusy, hdone, herr, -, -⟩ := h
  rw [statusWord, hbusy, hdone, herr]
  cases s.proto <;> rfl

/-- ILEN keeps the bits of DATA below LEN_W. -/
theorem getLsbD_ilenOfData (p : Params) (d : Word) {k : Nat} (hk : k < 32) :
    (ilenOfData p d).getLsbD k = (d.getLsbD k && decide (k < p.lenW)) := by
  rw [ilenOfData, BitVec.getLsbD_ofNat, Nat.testBit_mod_two_pow, BitVec.testBit_toNat, Bool.and_comm,
    decide_eq_true hk, Bool.and_true, Bool.and_comm]

/-! ### Inputs and commands (R169, R174) -/

/-- An entry at or above ILEN is no part of the written input. -/
theorem State.inputIs.write_above {s : State} {codes : List Word} {index : Nat} (d : Word)
    (h : s.inputIs codes) (hk : s.ilen.toNat ≤ index) :
    { s with ibuf := Memory.write s.ibuf index d }.inputIs codes := by
  obtain ⟨hlen, hread⟩ := h
  refine ⟨hlen, fun i hi => ?_⟩
  have hne : i ≠ index := by omega
  exact (Memory.read_write_other s.ibuf index i d hne).trans (hread i hi)

/-- A command started with a reserved OP ends in ILLEGAL_COMMAND with that OP kept (R174). -/
theorem engineStep_start_reserved (s : State) {op : BitVec 2} (hop : op = 2 ∨ op = 3) :
    (engineStep (s.start op)).failedWith errIllegalCommand ∧ (engineStep (s.start op)).op = op
      ∧ s.sameOutsideCommand (engineStep (s.start op))
      ∧ statusWord (engineStep (s.start op)) = if s.proto then 0x2E#32 else 0xE#32 := by
  have hillegal : commandIllegal (s.start op) = true :=
    (commandIllegal_iff _).2 (hop.imp_right .inl)
  have hfail : (engineStep (s.start op)).failedWith errIllegalCommand := by
    rw [engineStep_eq_complete, commandResult_illegal hillegal]
    exact complete_failedWith (s.start op) errIllegalCommand
  obtain ⟨hkept, hframe⟩ := engineStep_start_frame s op
  have hproto : (engineStep (s.start op)).proto = s.proto := by
    rw [engineStep_eq_complete, State.complete_proto, State.start_proto]
  exact ⟨hfail, hkept, hframe, hproto ▸ statusWord_of_failedWith_illegal hfail⟩

/-! ### The statements of 43_host_interface.md -/

/-- Settles O12: the register by INDEX, STATUS by its fields. -/
theorem registerReadReturnsRegister : Obligations.RegisterReadReturnsRegister := by
  intro index s
  rw [exec_rdReg]
  match index with
  | 0 | 2 | 3 => rfl
  | 1 => rw [readReg, statusWord_eq_shifts]; rfl
  | k + 4 => simp [readReg]

/-- Settles O14: the value that ILEN takes is `ilenOfData`, read bit by bit. -/
theorem ilenWriteTakesLowBits : Obligations.IlenWriteTakesLowBits := fun d s hb =>
  ⟨ilenOfData s.cfg d, exec_wrReg_ilen_idle d hb, fun _ => getLsbD_ilenOfData s.cfg d⟩

/-- Settles O15: while BUSY = 1 a write to CTRL, ILEN or IBUF is a violation, and every other write is
ignored. -/
theorem busyWritesDropped : Obligations.BusyWritesDropped := by
  intro s hb
  have drop : ∀ i, protoViolation s i = true → exec i s = .next { s with proto := true } :=
    fun _ => exec_of_violation
  refine ⟨fun d => drop _ ?ctrl, fun d => drop _ ?ilen, fun index d => drop _ ?ibuf,
    fun op => drop _ hb, drop _ hb, drop _ hb, drop _ hb, drop _ hb,
    fun index d h0 h2 => exec_wrReg_of_ne d s h0 h2, fun _ _ => rfl, fun _ _ => rfl⟩
  case ctrl | ilen | ibuf => simp [protoViolation, hb]

/-- Settles O19: in range and idle the buffer's laws of a write, otherwise a violation. -/
theorem ibufWriteStoresEntry : Obligations.IbufWriteStoresEntry := by
  intro index d s
  refine ⟨fun hb hk => ?stored, fun _ hk => exec_of_violation ?outOfRange,
    fun hb => exec_of_violation ?busy⟩
  case stored =>
    exact ⟨Memory.write s.ibuf index d, exec_wrIbuf_idle d hb hk,
      Memory.read_write_same s.ibuf index d, fun j => Memory.read_write_other s.ibuf index j d,
      fun hge _ hin => hin.write_above d hge⟩
  case outOfRange => simp [protoViolation, hk]
  case busy => simp [protoViolation, hb]

/-- Settles O25: each START sets its reserved OP, and the engine step rejects it. -/
theorem reservedStartEndsIllegal : Obligations.ReservedStartEndsIllegal := fun s hb =>
  ⟨⟨s.start 2, congrArg _ (startCommand_idle 2 hb), engineStep_start_reserved s (.inl rfl)⟩,
    ⟨s.start 3, congrArg _ (startCommand_idle 3 hb), engineStep_start_reserved s (.inr rfl)⟩⟩

/-- Settles O13: none of these registers is CTRL or ILEN. -/
theorem readOnlyRegisterWritesIgnored : Obligations.ReadOnlyRegisterWritesIgnored :=
  fun _ d s h => exec_wrReg_of_ne d s (by omega) (by omega)

/-- Settles O16: a command word without START is SETOP of its OP field. -/
theorem setopStoresOp : Obligations.SetopStoresOp := fun s hb =>
  ⟨fun op => exec_setop_idle op hb, fun d hd =>
    (exec_wrReg_zero_of_not_start s hd).trans (exec_setop_idle (cmdOp d) hb)⟩

/-- Settles O18: the three branches of the read. -/
theorem ibufReadReturnsEntry : Obligations.IbufReadReturnsEntry := by
  intro index s
  refine ⟨fun v hk hv => ?written, fun hk hv => ⟨Config.anyWord s.draws index, ?unwritten⟩,
    fun hk => ?outOfRange⟩
  case written => simp [exec, execRdIbuf, hk, hv, State.reply]
  case unwritten => simp [exec, execRdIbuf, hk, hv, State.reply, State.tick]
  case outOfRange => simp [exec, execRdIbuf, Nat.not_lt.2 hk, State.reply]

/-- Settles O21: each of the three meanings is the stated outcome itself. -/
theorem reservedSpaceAndObufWrites : Obligations.ReservedSpaceAndObufWrites :=
  fun _ _ _ => ⟨rfl, rfl, rfl⟩

end Sys2Proof.Machine

namespace Sys2Proof.Machine

/-! ### PROTO (60_exceptions.md R205) -/

/-- The violations in the words of R205: a write to CTRL, ILEN or IBUF while BUSY = 1, and a write to
IBUF out of range. -/
theorem protoViolation_iff (s : State) (i : Instr) :
    protoViolation s i = true ↔
      (s.busy = true ∧ ((∃ d, i = .wrReg 0 d) ∨ (∃ d, i = .wrReg 2 d) ∨ (∃ op, i = .setop op)
          ∨ i = .encode ∨ i = .decode ∨ i = .startRsv2 ∨ i = .startRsv3))
        ∨ ∃ k d, i = .wrIbuf k d ∧ (s.busy = true ∨ s.cfg.maxIn ≤ k) := by
  cases i <;> simp [protoViolation]

/-- A transaction sets PROTO exactly if it is a violation, and none clears it. -/
theorem Effect.proto_eq {i : Instr} {s t : State} (he : Effect i s t) :
    t.proto = (s.proto || protoViolation s i) := by
  cases he with
  | violation hv => rw [State.setProto_proto, hv, Bool.or_true]
  | answer _ _ hv | setOp _ _ hv | setIlen _ _ hv | setIbuf _ _ _ _ hv | start _ _ _ hv =>
    simp [hv]

@[simp] theorem engineStep_proto (s : State) : (engineStep s).proto = s.proto := by
  rw [engineStep_eq_complete, State.complete_proto]

/-- The engine step does not read PROTO. -/
theorem engineStep_with_proto (s : State) (b : Bool) :
    engineStep { s with proto := b } = { engineStep s with proto := b } := by
  rw [engineStep_eq_complete s, engineStep_eq_complete { s with proto := b }]
  rfl

/-- Only a reset event clears PROTO: the engine keeps it, and so does every transaction. -/
theorem reset_of_step_clears_proto {s t : State} (h : step s = .next t) (hs : s.proto = true)
    (ht : t.proto = false) : ∃ rest, s.script = .reset :: rest := by
  obtain ⟨script, schedule, ⟨-, rfl⟩ | ⟨hreset, -⟩ | ⟨f, -, he⟩⟩ := step_cases h
  · simp [hs] at ht
  · exact ⟨script, hreset⟩
  · simp [he.proto_eq, hs] at ht

/-- The host takes the event placed in front of its script at the very next step. -/
theorem step_withEvent (s : State) (e : HostEvent) : step (s.withEvent e) = hostStep e s := by
  have hturn : nextTurn (s.withEvent e) = .host e s := by
    -- By BUSY alone: while it is 1 the schedule's new head gives the host the turn.
    obtain ⟨cfg, op, _ | _⟩ := s
    · rfl
    · rfl
  rw [step, hturn]

/-- Settles O33: the effect of a transaction says what becomes of PROTO, the engine step does not read
it, and of the three kinds of step only a reset clears it. -/
theorem protoSetByExactlyTheViolations : Obligations.ProtoSetByExactlyTheViolations := by
  refine ⟨fun i s t h => ⟨?_, fun hv => ?_⟩, engineStep_with_proto,
    fun _ _ => reset_of_step_clears_proto, fun s => ⟨s.resetDevice, step_withEvent s .reset, rfl⟩⟩
  · rw [(effect_of_exec h).proto_eq, Bool.or_eq_true, protoViolation_iff]
  · rw [exec_of_violation hv] at h
    cases h
    rfl

/-! ### ILLEGAL_COMMAND (60_exceptions.md R204) -/

/-- Settles O24: the engine step tests for an illegal command first, and completes it with ERR = 3 and
no result. -/
theorem illegalCommandFails : Obligations.IllegalCommandFails := by
  intro s h
  have hend : engineStep s = s.complete errIllegalCommand [] := by
    rw [engineStep_eq_complete, commandResult_illegal ((commandIllegal_iff s).2 h)]
  rw [hend]
  exact ⟨complete_failedWith s errIllegalCommand, State.complete_op s errIllegalCommand [],
    complete_sameOutsideCommand s errIllegalCommand []⟩

end Sys2Proof.Machine

namespace Sys2Proof

/-! ### Decoding and encoding (30_encoding.md R70 to R78) -/

/-- An INDEX that fits its field survives it (30_encoding.md R72). -/
theorem toNat_index_of_fits {index : Nat} (h : indexFits index = true) :
    (BitVec.ofNat 32 index).toNat = index := by
  rw [BitVec.toNat_ofNat, Nat.mod_eq_of_lt (of_decide_eq_true h)]

/-- The encoding of SETOP has START = 0 and OP in its field. -/
theorem decode_encode_setop : ∀ op : BitVec 2, decode (encode (.setop op)) = .setop op := by decide

/-- Settles O4: a transaction's HDR names its row and its INDEX survives the field; a command word's
three bits name its row and its OP. -/
theorem decodeInvertsEncode : Obligations.DecodeInvertsEncode := by
  intro i hi
  cases i with
  | rdReg index | wrReg index _ | rdIbuf index | wrIbuf index _ | rdObuf index | wrObuf index _
  | rdRsv index | wrRsv index _ =>
    have hindex : (BitVec.ofNat 32 index).toNat = index := toNat_index_of_fits hi
    simp only [encode, txnFrame, decode, decodeTxn, hindex]
  | setop op => exact decode_encode_setop op
  | encode | decode | startRsv2 | startRsv3 => rfl

/-- A frame made of a transaction's own fields is that transaction. -/
theorem txnFrame_toNat (hdr : BitVec 3) (index data : Word) :
    txnFrame hdr index.toNat data = .txn ⟨hdr, index, data⟩ := by
  rw [txnFrame, BitVec.ofNat_toNat, BitVec.setWidth_eq]

/-- The eight values of HDR: SPACE and DIR (30_encoding.md R71). -/
theorem hdr_cases : ∀ hdr : BitVec 3, hdr = 0#3 ∨ hdr = 1#3 ∨ hdr = 2#3 ∨ hdr = 3#3
    ∨ hdr = 4#3 ∨ hdr = 5#3 ∨ hdr = 6#3 ∨ hdr = 7#3 := by decide

/-- Re-encoding a transaction keeps all but the DATA of a read, for which DIR is 0. -/
theorem encode_decode_txn (t : Txn) :
    encode (decode (.txn t)) = .txn { t with data := if t.hdr.getLsbD 0 then t.data else 0 } := by
  obtain ⟨hdr, index, data⟩ := t
  obtain rfl | rfl | rfl | rfl | rfl | rfl | rfl | rfl := hdr_cases hdr <;>
    simp only [decode, decodeTxn, encode, txnFrame_toNat] <;> rfl

/-- Re-encoding a command word keeps START and OP. -/
theorem encode_decode_cmd (d : Word) : encode (decode (.cmd d)) = .cmd (d &&& 0x7#32) := by
  rw [and_seven_eq_fields]
  cases hs : cmdStart d with
  | false =>
    rw [decode_cmd_of_not_start hs]
    generalize cmdOp d = op
    revert op
    decide
  | true =>
    rw [decode_cmd_of_start hs rfl]
    generalize cmdOp d = op
    revert op
    decide

/-- Settles O5: transactions and command words, each by the fields that their rows keep. -/
theorem encodeLosesOnlyIgnoredBits : Obligations.EncodeLosesOnlyIgnoredBits :=
  ⟨encode_decode_txn, encode_decode_cmd⟩

/-- Settles O1: each word evaluated by the decoder. -/
theorem specWordsDecode : Obligations.SpecWordsDecode := by
  unfold Obligations.SpecWordsDecode
  decide

end Sys2Proof

namespace Sys2Proof.Machine

/-! ### The command word of a write to CTRL (43_host_interface.md R162) -/

/-- A START row runs as a START with its own OP. -/
theorem exec_decode_cmd_of_start {d : Word} (s : State) (h : cmdStart d = true) :
    exec (decode (.cmd d)) s = .next (startCommand (cmdOp d) s) := by
  simp only [decode, decodeCmd, h, if_true]
  generalize cmdOp d = op
  match op with
  | 0#2 | 1#2 | 2#2 | 3#2 => rfl

/-- A write to CTRL with START = 1 is a START with the OP of the same word. -/
theorem exec_wrReg_zero_of_start {d : Word} (s : State) (h : cmdStart d = true) :
    exec (.wrReg 0 d) s = .next (startCommand (cmdOp d) s) := by
  simp only [exec, execWrReg, execCmdWord, h, if_true]
  generalize cmdOp d = op
  match op with
  | 0#2 | 1#2 | 2#2 | 3#2 => rfl

/-- Settles O6: with START = 0 both sides are SETOP, with START = 1 both are a START with the same OP. -/
theorem ctrlWriteRunsCommandRow : Obligations.CtrlWriteRunsCommandRow := by
  intro s d
  cases hs : cmdStart d with
  | false => rw [exec_wrReg_zero_of_not_start s hs, decode_cmd_of_not_start hs]
  | true => rw [exec_wrReg_zero_of_start s hs, exec_decode_cmd_of_start s hs]

end Sys2Proof.Machine

namespace Sys2Proof.Machine

/-! ### The sizes of the results (00_scope.md R5) -/

theorem encodeBytes_length_le_maxOut {p : Params} {bytes : List Byte} (h : bytes.length ≤ p.maxIn) :
    (encodeBytes bytes).length ≤ p.maxOut := by
  rw [encodeLengthLaw, Params.maxOut]
  gcongr

theorem maxIn_le_maxOut (p : Params) : p.maxIn ≤ p.maxOut := by
  rw [Params.maxOut]
  omega

theorem decodeCodes_ok_length_le_maxOut {p : Params} {codes : List Word} {out : List Byte}
    (h : codes.length ≤ p.maxIn) (hd : decodeCodes codes = .ok out) : out.length ≤ p.maxOut :=
  (decodeCodes_ok_length_le hd).trans (h.trans (maxIn_le_maxOut p))

/-- OLEN_W is the least width of at least one bit that holds MAX_OUT. -/
theorem olenW_le_iff (p : Params) {w : Nat} (hw : 1 ≤ w) :
    p.olenW ≤ w ↔ p.maxOut < 2 ^ w := by
  rw [Params.olenW, Nat.succ_le_iff, Nat.log2_eq_log_two]
  exact ⟨Nat.lt_pow_of_log_lt one_lt_two, Nat.log_lt_of_lt_pow' (Nat.ne_of_gt hw)⟩

/-- Settles O41: the length laws of the two transforms, and OLEN_W as MAX_OUT's bit length. -/
theorem maxOutHoldsEveryResult : Obligations.MaxOutHoldsEveryResult := by
  refine fun p => ⟨fun _ => encodeBytes_length_le_maxOut,
    fun _ _ => decodeCodes_ok_length_le_maxOut, ?_, fun w hw hfit => ?_⟩
  · have hlt : p.maxOut < 2 ^ p.olenW := (olenW_le_iff p (Nat.le_add_left 1 _)).1 le_rfl
    omega
  · have hpos : 0 < 2 ^ w := Nat.two_pow_pos w
    exact (olenW_le_iff p hw).2 (by omega)

end Sys2Proof.Machine

namespace Sys2Proof.Machine

/-! ### The invariant (10_state.md sections 3, 4 and 7) -/

/-- What ILEN takes of DATA fits LEN_W bits (43_host_interface.md R166). -/
theorem ilenOfData_lt (p : Params) (d : Word) : (ilenOfData p d).toNat < 2 ^ p.lenW :=
  calc (ilenOfData p d).toNat ≤ d.toNat % 2 ^ p.lenW := by
        rw [ilenOfData, BitVec.toNat_ofNat]; exact Nat.mod_le _ _
    _ < 2 ^ p.lenW := Nat.mod_lt _ (Nat.two_pow_pos p.lenW)

/-- The registers and the buffers at their reset values meet the invariant (10_state.md R33). -/
theorem stateInv_of_reset_values {s : State} (hp : s.cfg.legal = true) (hdone : s.done = false)
    (herr : s.err = errNone) (hilen : s.ilen = 0) (holen : s.olen = 0) (hibuf : s.ibuf = [])
    (hobuf : s.obuf = []) : StateInv s where
  params := hp
  ilenFits := by rw [hilen]; exact Nat.two_pow_pos s.cfg.lenW
  errLegal := by rw [herr]; decide
  notBusyAndDone := fun _ => hdone
  notDoneClean := fun _ => ⟨herr, holen⟩
  errorEmpty := fun _ => holen
  olenFits := by rw [holen]; exact Nat.zero_le _
  ibufWf := by rw [hibuf]; rfl
  ibufInRange := by simp [hibuf]
  obufHolds := by rw [hobuf, holen]; rfl

theorem StateInv.start {s : State} (h : StateInv s) (op : BitVec 2) : StateInv (s.start op) :=
  { h with
    errLegal := Nat.zero_le 3
    notBusyAndDone := fun _ => rfl
    notDoneClean := fun _ => ⟨rfl, rfl⟩
    errorEmpty := fun _ => rfl
    olenFits := Nat.zero_le _
    obufHolds := rfl }

theorem StateInv.setIlen {s : State} (h : StateInv s) (d : Word) :
    StateInv { s with ilen := ilenOfData s.cfg d } :=
  { h with ilenFits := ilenOfData_lt s.cfg d }

theorem StateInv.setIbuf {s : State} (h : StateInv s) {index : Nat} (d : Word)
    (hk : index < s.cfg.maxIn) : StateInv { s with ibuf := Memory.write s.ibuf index d } :=
  { h with
    ibufWf := Memory.wf_write index d h.ibufWf
    ibufInRange := fun c hc => by
      obtain rfl | hc := Memory.mem_write hc
      · exact hk
      · exact h.ibufInRange c hc }

/-- The end of an engine step meets the invariant, if the error is a code of 60_exceptions.md R200, has
no result, and the result fits MAX_OUT. -/
theorem StateInv.complete {s : State} (h : StateInv s) {err : BitVec 3} {out : List Byte}
    (herr : err.toNat ≤ 3) (hempty : err ≠ errNone → out = []) (hfit : out.length ≤ s.cfg.maxOut) :
    StateInv (s.complete err out) := by
  have holen : (s.complete err out).olen.toNat = out.length := by
    rw [State.complete_olen, BitVec.toNat_ofNat,
      Nat.mod_eq_of_lt (hfit.trans_lt (maxOut_lt h.params))]
  exact { h with
    errLegal := herr
    notBusyAndDone := fun hb => by simp at hb
    notDoneClean := fun hd => by simp at hd
    errorEmpty := fun he => by rw [State.complete_olen, hempty he]; rfl
    olenFits := holen.trans_le hfit
    obufHolds := by rw [holen]; exact Memory.keys_writeAll_nil out }

/-- What a command ends with: a code of 60_exceptions.md R200, no output on an error (R203), and an
output that MAX_OUT holds. -/
theorem commandResult_legal (p : Params) (op : BitVec 2) (input : List Word) :
    (commandResult p op input).1.toNat ≤ 3
      ∧ ((commandResult p op input).1 ≠ errNone → (commandResult p op input).2 = [])
      ∧ (commandResult p op input).2.length ≤ p.maxOut := by
  rw [commandResult]
  split
  · exact ⟨le_rfl, fun _ => rfl, Nat.zero_le _⟩
  · next hlegal =>
    have hin : input.length ≤ p.maxIn := by
      by_contra hlt
      exact hlegal (.inr (.inr (Nat.not_le.1 hlt)))
    split
    · exact ⟨Nat.zero_le 3, fun h => absurd rfl h, encodeBytes_length_le_maxOut (by simpa using hin)⟩
    · split
      · next hd =>
        exact ⟨Nat.zero_le 3, fun h => absurd rfl h, decodeCodes_ok_length_le_maxOut hin hd⟩
      · next kind _ =>
        refine ⟨?_, fun _ => rfl, Nat.zero_le _⟩
        cases kind <;> decide

theorem StateInv.engineStep {s : State} (h : StateInv s) : StateInv (engineStep s) := by
  obtain ⟨herr, hempty, hfit⟩ := commandResult_legal s.cfg s.op (inputEntries s)
  rw [engineStep_eq_complete]
  exact h.complete herr hempty hfit

theorem StateInv.resetDevice {s : State} (h : StateInv s) : StateInv s.resetDevice :=
  stateInv_of_reset_values h.params rfl rfl rfl rfl rfl rfl

/-- Every transaction keeps the invariant. -/
theorem StateInv.of_effect {i : Instr} {s t : State} (h : StateInv s) (he : Effect i s t) :
    StateInv t := by
  cases he with
  | answer | violation | setOp => exact { h with }
  | setIlen d => exact h.setIlen d
  | setIbuf index d hk => exact h.setIbuf d hk
  | start op => exact h.start op

/-- Settles O36: the three kinds of step keep it, as taking an event off the host's side does. -/
theorem stepKeepsInvariant : Obligations.StepKeepsInvariant := by
  intro s t h hstep
  obtain ⟨script, schedule, hcases⟩ := step_cases hstep
  have h' : StateInv { s with script := script, schedule := schedule } := { h with }
  obtain ⟨-, rfl⟩ | ⟨-, rfl⟩ | ⟨f, -, he⟩ := hcases
  · exact h'.engineStep
  · exact h'.resetDevice
  · exact h'.of_effect he

/-- Settles O37: every register and buffer is at its reset value, and the parameters are legal. -/
theorem resetMeetsInvariant : Obligations.ResetMeetsInvariant := by
  have hreset : ∀ p : Params, p.legal = true → StateInv (State.resetWith p) := fun p hp =>
    stateInv_of_reset_values hp rfl rfl rfl rfl rfl rfl
  exact ⟨hreset, hreset Config.vectorParams (by decide)⟩

/-- Settles O38: each value is the reset state's own field. -/
theorem resetValues : Obligations.ResetValues :=
  fun _ => ⟨rfl, rfl, rfl, rfl, rfl, rfl, rfl, rfl, fun _ => rfl, fun _ => rfl⟩

/-- Settles O39: the host takes the reset at once, whatever BUSY is. -/
theorem resetEventFromAnyState : Obligations.ResetEventFromAnyState := fun s =>
  ⟨s.resetDevice, step_withEvent s .reset, rfl, rfl, rfl, rfl, rfl, rfl, rfl, fun _ => rfl,
    fun _ => rfl, rfl, rfl, rfl, rfl⟩

end Sys2Proof.Machine

namespace Sys2Proof.Machine

/-! ### Whose step it is (10_state.md R20, 43_host_interface.md R160, R173, R175) -/

/-- Settles O11: every transaction has one of the effects, each of which is a next state. -/
theorem everyTransactionCompletes : Obligations.EveryTransactionCompletes := fun i s =>
  have ⟨t, ht, _⟩ := exec_effect i s
  ⟨t, ht⟩

/-- While BUSY = 0 the host takes its next event. -/
theorem step_host_of_idle {s : State} {e : HostEvent} {rest : List HostEvent}
    (hs : s.script = e :: rest) (hb : s.busy = false) :
    step s = hostStep e { s with script := rest } := by
  simp [step, nextTurn, hs, hb]

/-- While BUSY = 1 the host takes its next event where the schedule says so. -/
theorem step_host_of_scheduled {s : State} {e : HostEvent} {rest : List HostEvent}
    {more : List Agent} (hs : s.script = e :: rest) (hb : s.busy = true)
    (hc : s.schedule = .host :: more) :
    step s = hostStep e { s with script := rest, schedule := more } := by
  simp [step, nextTurn, hs, hb, hc]

/-- While BUSY = 1 the engine moves where the host has nothing pending or the schedule is used up. -/
theorem step_engine_of_default {s : State} (hb : s.busy = true)
    (h : s.script = [] ∨ s.schedule = []) : step s = .next (engineStep s) := by
  cases hs : s.script with
  | nil => simp [step, nextTurn, hs, hb]
  | cons e rest =>
    have hc : s.schedule = [] := h.resolve_left (by simp [hs])
    simp [step, nextTurn, hs, hb, hc]

/-- While BUSY = 1 the engine moves where the schedule says so. -/
theorem step_engine_of_scheduled {s : State} {more : List Agent} (hb : s.busy = true)
    (hs : s.script ≠ []) (hc : s.schedule = .engine :: more) :
    step s = .next (engineStep { s with schedule := more }) := by
  obtain ⟨e, rest, hs⟩ := List.exists_cons_of_ne_nil hs
  simp [step, nextTurn, hs, hb, hc]

theorem step_ended {s : State} (hs : s.script = []) (hb : s.busy = false) :
    step s = .fault .runEnded := by
  simp [step, nextTurn, hs, hb]

/-- Settles O7: the host's step of a transaction is `exec` of its decoding. -/
theorem stepRunsPendingInstruction : Obligations.StepRunsPendingInstruction :=
  fun _ _ _ hs => ⟨step_host_of_idle hs, fun _ => step_host_of_scheduled hs⟩

/-- Settles O8: the two turns that are the engine's. -/
theorem stepRunsEngineWhileBusy : Obligations.StepRunsEngineWhileBusy :=
  fun _ hb => ⟨step_engine_of_default hb, fun _ => step_engine_of_scheduled hb⟩

/-- The host's step is total. -/
theorem exists_hostStep_eq_next (e : HostEvent) (s : State) : ∃ t, hostStep e s = .next t := by
  cases e with
  | frame f => exact everyTransactionCompletes (decode f) s
  | reset => exact ⟨s.resetDevice, rfl⟩

/-- A step goes on where an agent is enabled. -/
theorem exists_step_eq_next {s : State} (h : s.script ≠ [] ∨ s.busy = true) :
    ∃ t, step s = .next t := by
  obtain ⟨hs, hb, -⟩ | ⟨-, -, hn⟩ | ⟨_, -, -, -, hn⟩ | ⟨e, _, _, -, -, -, hn⟩ | ⟨e, _, -, -, hn⟩ :=
    nextTurn_cases s
  · simp [hs, hb] at h
  all_goals rw [step, hn]
  · exact ⟨_, rfl⟩
  · exact ⟨_, rfl⟩
  · exact exists_hostStep_eq_next e _
  · exact exists_hostStep_eq_next e _

/-- Settles O9: either an agent is enabled and the step goes on, or none is and the run has ended. -/
theorem runEndsExactlyWhenNothingIsEnabled : Obligations.RunEndsExactlyWhenNothingIsEnabled := by
  intro s
  by_cases h : s.script ≠ [] ∨ s.busy = true
  · obtain ⟨t, ht⟩ := exists_step_eq_next h
    refine ⟨⟨fun hf => ?_, fun ⟨hs, hb⟩ => ?_⟩, fun _ => h, fun _ => ⟨t, ht⟩⟩
    · simp [ht] at hf
    · simp [hs, hb] at h
  · obtain ⟨hs, hb⟩ : s.script = [] ∧ s.busy = false := by simpa using h
    have hstep := step_ended hs hb
    refine ⟨⟨fun _ => ⟨hs, hb⟩, fun _ => hstep⟩, fun ⟨t, ht⟩ => ?_, fun he => absurd he h⟩
    simp [hstep] at ht

/-- Settles O10: the word's frame is placed in front of the script, and the host takes it. -/
theorem placedWordRunsNext : Obligations.PlacedWordRunsNext := by
  intro s nbits w i hw
  obtain ⟨f, hf, rfl⟩ := Option.map_eq_some_iff.1 hw
  rw [State.withFetchWord, hf]
  exact step_withEvent s (.frame f)

end Sys2Proof.Machine

namespace Sys2Proof.Machine

/-! ### Reads of OBUF (43_host_interface.md R170, 10_state.md R28) -/

theorem exec_rdObuf_out_of_range {s : State} {index : Nat} (hk : s.cfg.maxOut ≤ index) :
    exec (.rdObuf index) s = .next { s with replies := 0 :: s.replies } := by
  simp [exec, execRdObuf, Nat.not_lt.2 hk, State.reply]

theorem exec_rdObuf_entry {s : State} {index : Nat} {b : Byte} (hk : index < s.cfg.maxOut)
    (hb : resultEntry s index = some b) :
    exec (.rdObuf index) s = .next { s with replies := b.setWidth 32 :: s.replies } := by
  simp [exec, execRdObuf, hk, hb, State.reply]

theorem exists_exec_rdObuf_draw {s : State} {index : Nat} (hk : index < s.cfg.maxOut)
    (hb : resultEntry s index = none) :
    ∃ b : Byte, exec (.rdObuf index) s = .next
      { s with replies := b.setWidth 32 :: s.replies, draws := s.draws + 1 } :=
  ⟨Config.anyByte s.draws index, by simp [exec, execRdObuf, hk, hb, State.reply, State.tick]⟩

/-- No result is seen while a command runs, before one has completed, after an error, or beyond OLEN. -/
theorem resultEntry_eq_none {s : State} {index : Nat}
    (h : s.busy = true ∨ s.done = false ∨ s.err ≠ 0 ∨ s.olen.toNat ≤ index) :
    resultEntry s index = none := by
  refine if_neg fun ⟨hready, hk⟩ => ?_
  simp only [State.resultReady, Bool.and_eq_true, Bool.not_eq_true', decide_eq_true_eq] at hready
  obtain ⟨⟨hbusy, hdone⟩, herr⟩ := hready
  obtain h | h | h | h := h
  · simp [hbusy] at h
  · simp [hdone] at h
  · exact h herr
  · omega

/-- After a success an entry below OLEN is seen as OBUF lists it. -/
theorem resultEntry_of_ready {s : State} {index : Nat} (hbusy : s.busy = false)
    (hdone : s.done = true) (herr : s.err = errNone) (hk : index < s.olen.toNat) :
    resultEntry s index = Memory.read s.obuf index :=
  if_pos ⟨by simp [State.resultReady, hbusy, hdone, herr], hk⟩

/-- In a state that meets the invariant OBUF lists every entry below OLEN. -/
theorem StateInv.exists_obuf_entry {s : State} (h : StateInv s) {index : Nat}
    (hk : index < s.olen.toNat) : ∃ b, Memory.read s.obuf index = some b := by
  apply Memory.exists_read_of_key
  rw [h.obufHolds]
  exact List.mem_range.2 hk

/-- Settles O20: the three branches of the read. -/
theorem obufReadReturnsResult : Obligations.ObufReadReturnsResult := by
  intro index s
  refine ⟨exec_rdObuf_out_of_range, fun hinv hbusy hdone herr hk => ?_, fun hk hnone => ?_⟩
  · obtain ⟨b, hb⟩ := hinv.exists_obuf_entry hk
    have hentry := (resultEntry_of_ready hbusy hdone herr hk).trans hb
    exact ⟨b, hb, exec_rdObuf_entry (hk.trans_le hinv.olenFits) hentry⟩
  · exact exists_exec_rdObuf_draw hk (resultEntry_eq_none hnone)

/-- Settles O35: the invariant keeps OLEN at 0 until DONE, and BUSY = 1 hides OBUF. -/
theorem resultHiddenWhileBusy : Obligations.ResultHiddenWhileBusy := by
  intro s hinv hb
  obtain ⟨-, holen⟩ := hinv.notDoneClean (hinv.notBusyAndDone hb)
  have hread : readReg s 3 = 0 := holen
  refine ⟨by rw [exec_rdReg, hread], fun index hk => ?_⟩
  exact exists_exec_rdObuf_draw hk (resultEntry_eq_none (.inl hb))

/-! ### Reads have no side effect (20_memory.md R57) -/

/-- A read answers and no more, and then answers the same however often it has answered before; or it
draws a free value. -/
theorem exec_read_cases {i : Instr} (s : State)
    (hi : (∃ k, i = .rdReg k) ∨ (∃ k, i = .rdIbuf k) ∨ (∃ k, i = .rdObuf k) ∨ ∃ k, i = .rdRsv k) :
    (∃ v, exec i s = .next (s.reply v) ∧ ∀ w, exec i (s.reply w) = .next ((s.reply w).reply v))
    ∨ ∃ v, exec i s = .next (s.reply v).tick := by
  obtain ⟨k, rfl⟩ | ⟨k, rfl⟩ | ⟨k, rfl⟩ | ⟨k, rfl⟩ := hi
  · exact .inl ⟨readReg s k, rfl, fun _ => rfl⟩
  · by_cases hk : k < s.cfg.maxIn
    · cases hv : Memory.read s.ibuf k with
      | some v => exact .inl ⟨v, by simp [exec, execRdIbuf, hk, hv]⟩
      | none => exact .inr ⟨Config.anyWord s.draws k, by simp [exec, execRdIbuf, hk, hv]⟩
    · exact .inl ⟨0, by simp [exec, execRdIbuf, hk]⟩
  · by_cases hk : k < s.cfg.maxOut
    · cases hb : resultEntry s k with
      | some b =>
        exact .inl ⟨b.setWidth 32, exec_rdObuf_entry hk hb,
          fun w => exec_rdObuf_entry (s := s.reply w) hk hb⟩
      | none =>
        obtain ⟨b, hexec⟩ := exists_exec_rdObuf_draw hk hb
        exact .inr ⟨b.setWidth 32, hexec⟩
    · have hout : s.cfg.maxOut ≤ k := Nat.not_lt.1 hk
      exact .inl ⟨0, exec_rdObuf_out_of_range hout,
        fun w => exec_rdObuf_out_of_range (s := s.reply w) hout⟩
  · exact .inl ⟨0, rfl, fun _ => rfl⟩

/-- Settles O22: a read that drew nothing has only answered, and answers the same again. -/
theorem readsHaveNoSideEffect : Obligations.ReadsHaveNoSideEffect := by
  intro i s t hi ht
  obtain ⟨v, hexec, hagain⟩ | ⟨v, hexec⟩ := exec_read_cases s hi
  · rw [hexec] at ht
    cases ht
    exact ⟨⟨v, rfl⟩, fun _ => ⟨_, hagain v, rfl, rfl⟩⟩
  · rw [hexec] at ht
    cases ht
    exact ⟨⟨v, rfl⟩, fun hdraws => absurd hdraws (Nat.succ_ne_self s.draws)⟩

end Sys2Proof.Machine

namespace Sys2Proof.Machine

/-! ### STATUS and the START (10_state.md R32, 43_host_interface.md R164) -/

/-- The transactions that carry START = 1: the four commands, and a write to CTRL with DATA[2] = 1. -/
theorem isStart_iff (i : Instr) :
    isStart i = true ↔ i = .encode ∨ i = .decode ∨ i = .startRsv2 ∨ i = .startRsv3
      ∨ ∃ d : Word, i = .wrReg 0 d ∧ d.getLsbD 2 = true := by
  cases i <;> simp [isStart, cmdStart]

/-- Settles O34: of the effects of a transaction only a START's touches STATUS, OLEN or OBUF. -/
theorem onlyStartChangesStatus : Obligations.OnlyStartChangesStatus := by
  intro i s t h
  cases effect_of_exec h with
  | answer | violation | setOp | setIlen | setIbuf => exact .inl ⟨rfl, rfl, rfl, rfl, rfl⟩
  | start op hi hb => exact .inr ⟨hb, (isStart_iff i).1 hi, rfl, rfl, rfl, rfl, rfl⟩

/-- Settles O17: each START starts an idle machine with its own OP; BUSY = 1 then hides OBUF and enables
the engine. -/
theorem startBeginsCommand : Obligations.StartBeginsCommand := by
  intro s hb
  refine ⟨fun d hd => ?_, congrArg _ (startCommand_idle 0 hb), congrArg _ (startCommand_idle 1 hb),
    congrArg _ (startCommand_idle 2 hb), congrArg _ (startCommand_idle 3 hb), fun i t hi ht => ?_⟩
  · exact (exec_wrReg_zero_of_start s hd).trans (congrArg _ (startCommand_idle (cmdOp d) hb))
  · obtain ⟨op, hexec⟩ := exec_command_idle hi
    rw [hexec s hb] at ht
    cases ht
    refine ⟨step_engine_of_default rfl (.inr rfl), fun index hk => ?_⟩
    exact exists_exec_rdObuf_draw (s := s.start op) hk (resultEntry_eq_none (.inl rfl))

/-! ### The engine step (43_host_interface.md R173) -/

/-- Settles O23: the engine step completes the command with the code of the pure result. -/
theorem engineStepCompletesCommand : Obligations.EngineStepCompletesCommand := by
  intro s
  obtain ⟨herr, -, -⟩ := commandResult_legal s.cfg s.op (inputEntries s)
  rw [engineStep_eq_complete]
  exact ⟨rfl, rfl, herr, rfl, complete_sameOutsideCommand s _ _⟩

/-- Settles O28: ENCODE in range shows a result, whose length is Encode's. -/
theorem encodeNeverFailsInRange : Obligations.EncodeNeverFailsInRange := by
  intro s hp ho hn
  obtain ⟨-, -, herr, holen, -⟩ := engineStep_encode_resultIs ho hp hn
  rw [encodeLengthLaw, inputBytes_length] at holen
  exact ⟨herr, holen⟩

/-- A result copied into the input of another machine is that machine's written input (95_test_vectors.md
P3). -/
theorem State.resultIs.inputIs_of_copy {t u : State} {out : List Byte} (h : t.resultIs out)
    (hilen : u.ilen = t.olen)
    (hcopy : ∀ j < u.ilen.toNat,
      Memory.read u.ibuf j = (Memory.read t.obuf j).map fun b => b.setWidth 32) :
    u.inputIs (out.map fun b => b.setWidth 32) := by
  obtain ⟨-, -, -, holen, hobuf⟩ := h
  have hlen : (out.map fun b => b.setWidth 32).length = u.ilen.toNat := by
    rw [List.length_map, hilen, holen]
  refine ⟨hlen, fun j hj => ?_⟩
  rw [hcopy j (hlen ▸ hj), hobuf, List.getElem?_map]

/-- Settles O32: the copied result is the second machine's input, and Decode of Encode is the
identity. -/
theorem encodedResultDecodesBack : Obligations.EncodedResultDecodesBack := by
  intro s u codes hp hos hns hin _ hou hilen hnu hcopy
  have hbytes : inputBytes s = codes.map fun c => c.setWidth 8 := by
    rw [inputBytes_eq_map_setWidth, inputEntries_of_inputIs hin]
  have hresult := engineStep_encode_resultIs hos hp hns
  rw [hbytes] at hresult
  apply engineStep_decode_resultIs hou hnu
  rw [inputEntries_of_inputIs (hresult.inputIs_of_copy hilen hcopy)]
  exact decodeOfEncodeIsIdentity _

/-! ### A command in flight ends (70_reset_and_hazards.md R240) -/

theorem run_succ_of_step (M : Host.Core) {s t : M.State} (k : Nat) (h : M.step s = .next t) :
    M.run (k + 1) s = M.run k t := by
  rw [Host.Core.run, h]

/-- A step while BUSY = 1 ends the command, or it is a transaction that uses up an entry of the
schedule. -/
theorem exists_step_of_busy {s : State} (hb : s.busy = true) :
    ∃ t, step s = .next t
      ∧ (t.busy = false ∨ (t.busy = true ∧ t.schedule.length < s.schedule.length)) := by
  have hengine : ∀ s, (engineStep s).busy = false := fun s => (engineStepCompletesCommand s).1
  obtain ⟨-, hidle, -⟩ | ⟨-, hd, -⟩ | ⟨_, -, hs, hc, -⟩ | ⟨e, rest, more, -, hs, hc, -⟩
      | ⟨_, _, hidle, -, -⟩ := nextTurn_cases s
  · simp [hb] at hidle
  · exact ⟨_, step_engine_of_default hb hd, .inl (hengine _)⟩
  · exact ⟨_, step_engine_of_scheduled hb hs hc, .inl (hengine _)⟩
  · rw [step_host_of_scheduled hs hb hc]
    cases e with
    | reset => exact ⟨_, rfl, .inl rfl⟩
    | frame f =>
      obtain ⟨t, ht, he⟩ := exec_effect (decode f) { s with script := rest, schedule := more }
      have hless : more.length < s.schedule.length := by simp [hc]
      refine ⟨t, ht, .inr ?_⟩
      obtain ⟨-, rfl⟩ | ⟨-, _, _, rfl⟩ := he.cases_of_busy hb
      · exact ⟨hb, hless⟩
      · exact ⟨hb, hless⟩
  · simp [hb] at hidle

/-- A command in flight ends within one step more than the schedule's entries. -/
theorem command_ends_within (n : Nat) {s : State} (hb : s.busy = true)
    (hn : s.schedule.length ≤ n) :
    ∃ k ≤ n + 1, ∃ t, Host.Core.run core k s = .next t ∧ t.busy = false := by
  induction n generalizing s with
  | zero =>
    obtain ⟨t, ht, hidle | ⟨-, hless⟩⟩ := exists_step_of_busy hb
    · exact ⟨1, le_rfl, t, run_succ_of_step core 0 ht, hidle⟩
    · omega
  | succ n ih =>
    obtain ⟨t, ht, hidle | ⟨hbusy, hless⟩⟩ := exists_step_of_busy hb
    · exact ⟨1, Nat.le_add_left 1 _, t, run_succ_of_step core 0 ht, hidle⟩
    · obtain ⟨k, hk, u, hrun, hidle⟩ := ih hbusy (by omega)
      exact ⟨k + 1, Nat.succ_le_succ hk, u, (run_succ_of_step core k ht).trans hrun, hidle⟩

/-- Settles O40: every step before the engine's, or a reset, uses up an entry of the schedule. -/
theorem commandInFlightEnds : Obligations.CommandInFlightEnds :=
  fun s hb => command_ends_within s.schedule.length hb le_rfl

end Sys2Proof.Machine
